-- ==== Sys2Proof/Word.lean ====
section
/-! DEFINITION. The byte, the one word size the block reads from memory (00_scope section 4, 20_memory R45).
Every other width of the block is a parameter of the model (00_scope R5), so addresses, lengths and counts are
naturals with a stated bound (92_eei_decisions D14). -/

namespace Sys2Proof

/-- A byte: 8 bits, bit 0 the least significant (00_scope section 4). -/
abbrev Byte := BitVec 8

end Sys2Proof
end

