-- ==== Sys2Proof/Config.lean ====
section
/-! DEFINITION. What an implementation fixes (00_scope R5) and the values the spec leaves open.
The parameters are one plain record that State carries (log 1), so a statement about every state is a statement
about every width and every bit period. The opaque constants have no value that a proof can see. -/

namespace Sys2Proof

/-- The parameters of 00_scope R5 that a rule of the block reads. `F_TCLK` and `BAUD` are informative only
(92_eei_decisions D3; log 21). -/
structure Params where
  /-- `ADDR_W`, the width of a buffer address in bits -/
  addrW : Nat
  /-- `LEN_W`, the width of `length` and `byte_index` in bits -/
  lenW : Nat
  /-- `CNT_W`, the width of the timer counter in bits -/
  cntW : Nat
  /-- `P`, the bit period in timer-clock cycles -/
  period : Nat
  deriving DecidableEq, Repr

/-- The constraints of the table "Parameters left OPEN" of 92_eei_decisions: every width at least 1,
`1 <= P <= 2^CNT_W`. -/
def Params.legal (p : Params) : Bool :=
  decide (1 ≤ p.addrW) && decide (1 ≤ p.lenW) && decide (1 ≤ p.cntW) &&
    decide (1 ≤ p.period) && decide (p.period ≤ 2 ^ p.cntW)

/-- `CNT_W - 1` of the implementation: OPEN in the spec (00_scope R5; log 3). -/
opaque Config.cntWLessOne : Nat

/-- Fixes `P` of the implementation up to the bound `2^CNT_W`: OPEN in the spec (00_scope R5; log 3). -/
opaque Config.periodSeed : Nat

/-- FREE VALUE. The address INIT leaves in `F.buf`, which 41_controller R100 calls unspecified
(93_implementation_defined U11; log 5). Applied to State's counter of draws. -/
opaque Config.freeAddr : Nat → Nat

/-- FREE VALUE. Whether the main context moves before the timer where both may move and nothing says which
(41_controller R102, 92_eei_decisions D28; log 8). Applied to State's counter of draws. -/
opaque Config.mainMovesFirst : Nat → Bool

/-- The parameters at reset: the spec's default widths for addresses and lengths (00_scope R5; log 2), and any
legal counter width and bit period (log 3). -/
def Config.params : Params :=
  { addrW := 16
    lenW := 16
    cntW := Config.cntWLessOne + 1
    period := Config.periodSeed % 2 ^ (Config.cntWLessOne + 1) + 1 }

/-- The bit rate of the reference configuration, in bits per second (00_scope R5, 30_encoding R73).
Informative: no rule of the block reads it (log 21). -/
def Config.referenceBaud : Nat := 9600

end Sys2Proof
end

