-- ==== Sys2Proof/Syntax.lean ====
section
/-! DEFINITION. The operations of SUART-TX (00_scope R4), one constructor per row of spec/opcode_table.json, and the
event word with its operands beside it (30_encoding R69). -/

namespace Sys2Proof

/-- The operations. `buffer` is an address of `ADDR_W` bits and `len` a count of `LEN_W` bits; WellFormed checks
both. The two forms of the length operand (30_encoding R68) are two rows of the table, as are the six arms of
ADVANCE (30_encoding R70). -/
inductive Instr where
  /-- INIT (41_controller R100) -/
  | init
  /-- WRITE with an explicit length (41_controller R101) -/
  | writeLen (buffer len : Nat)
  /-- WRITE with the length measured (41_controller R101) -/
  | writeMeasure (buffer : Nat)
  /-- POLL (41_controller R102) -/
  | poll
  /-- START (41_controller R103) -/
  | start
  /-- STOP (41_controller R104) -/
  | stop
  /-- TCYCLE (42_timer_handler R120) -/
  | tcycle
  /-- ISR (42_timer_handler R122) -/
  | isr
  /-- ADV.START (40_framer R83) -/
  | advStart
  /-- ADV.DATA.BIT (40_framer R84) -/
  | advDataBit
  /-- ADV.DATA.END (40_framer R85) -/
  | advDataEnd
  /-- ADV.STOP.NEXT (40_framer R86) -/
  | advStopNext
  /-- ADV.STOP.LAST (40_framer R87) -/
  | advStopLast
  /-- ADV.DONE (40_framer R88) -/
  | advDone
  /-- FRESET with an explicit length (40_framer R80) -/
  | fresetLen (buffer len : Nat)
  /-- FRESET with the length measured (40_framer R80) -/
  | fresetMeasure (buffer : Nat)
  /-- MEASURE (40_framer R81) -/
  | measure (buffer : Nat)
  deriving DecidableEq, Repr

/-- The row's mnemonic in spec/opcode_table.json. -/
def Instr.mnemonic : Instr → String
  | .init => "INIT"
  | .writeLen _ _ => "WRITE.LEN"
  | .writeMeasure _ => "WRITE.MEASURE"
  | .poll => "POLL"
  | .start => "START"
  | .stop => "STOP"
  | .tcycle => "TCYCLE"
  | .isr => "ISR"
  | .advStart => "ADV.START"
  | .advDataBit => "ADV.DATA.BIT"
  | .advDataEnd => "ADV.DATA.END"
  | .advStopNext => "ADV.STOP.NEXT"
  | .advStopLast => "ADV.STOP.LAST"
  | .advDone => "ADV.DONE"
  | .fresetLen _ _ => "FRESET.LEN"
  | .fresetMeasure _ => "FRESET.MEASURE"
  | .measure _ => "MEASURE"

/-- An event word with its operands beside it (30_encoding R69: "The operands of WRITE (`buffer`, `len`) travel
beside the event word, not in it"). The two operand lanes are always there; an operation that takes no such operand
does not look at the lane (DESIGN CHOICE, safe, log 10). -/
structure Event where
  /-- the event word `ev` -/
  ev : Byte
  /-- the lane of the buffer address -/
  buffer : Nat
  /-- the lane of the explicit length -/
  len : Nat
  deriving DecidableEq, Repr

end Sys2Proof
end

