-- ==== Sys2Proof/WellFormed.lean ====
section
/-! DEFINITION. Which operations are well formed under given parameters: a buffer is an `ADDR_W`-bit address and an
explicit length a `LEN_W`-bit count, `0 <= n < 2^LEN_W` (30_encoding R68, spec/opcode_table.json "operands"). -/

namespace Sys2Proof

/-- The operands fit their widths. -/
def Instr.wf (p : Params) : Instr → Bool
  | .init => true
  | .writeLen buffer len => decide (buffer < 2 ^ p.addrW) && decide (len < 2 ^ p.lenW)
  | .writeMeasure buffer => decide (buffer < 2 ^ p.addrW)
  | .poll => true
  | .start => true
  | .stop => true
  | .tcycle => true
  | .isr => true
  | .advStart => true
  | .advDataBit => true
  | .advDataEnd => true
  | .advStopNext => true
  | .advStopLast => true
  | .advDone => true
  | .fresetLen buffer len => decide (buffer < 2 ^ p.addrW) && decide (len < 2 ^ p.lenW)
  | .fresetMeasure buffer => decide (buffer < 2 ^ p.addrW)
  | .measure buffer => decide (buffer < 2 ^ p.addrW)

end Sys2Proof
end

