-- ==== Sys2Proof/Decode.lean ====
section
/-! DEFINITION. The event word (30_encoding R69 to R71): the decoder, total on every byte, and the encoder, both
written from the table of spec/opcode_table.json. -/

namespace Sys2Proof

/-- Why an event word names no operation (30_encoding R71). -/
inductive Reject where
  /-- operation code 0x0 or 0xB to 0xF -/
  | reservedOp (op : BitVec 4)
  /-- a selector that the table of 30_encoding R69 does not give for its operation code -/
  | reservedSub (op sub : BitVec 4)
  deriving DecidableEq, Repr

/-- One row of spec/opcode_table.json: mask, match, and the operation it names with its operands. -/
structure Row where
  mask : Byte
  word : Byte
  build : Nat → Nat → Instr

/-- The rows of the main context and of the timer (30_encoding R69). -/
def contextRows : List Row :=
  [ ⟨0xFF#8, 0x10#8, fun _ _ => .init⟩,
    ⟨0xFF#8, 0x20#8, fun buffer len => .writeLen buffer len⟩,
    ⟨0xFF#8, 0x28#8, fun buffer _ => .writeMeasure buffer⟩,
    ⟨0xFF#8, 0x30#8, fun _ _ => .poll⟩,
    ⟨0xFF#8, 0x40#8, fun _ _ => .start⟩,
    ⟨0xFF#8, 0x50#8, fun _ _ => .stop⟩,
    ⟨0xFF#8, 0x60#8, fun _ _ => .tcycle⟩,
    ⟨0xFF#8, 0x70#8, fun _ _ => .isr⟩ ]

/-- The six arms of ADVANCE (30_encoding R70). -/
def advanceRows : List Row :=
  [ ⟨0xFC#8, 0x80#8, fun _ _ => .advStart⟩,
    ⟨0xFE#8, 0x84#8, fun _ _ => .advDataBit⟩,
    ⟨0xFE#8, 0x86#8, fun _ _ => .advDataEnd⟩,
    ⟨0xFD#8, 0x88#8, fun _ _ => .advStopNext⟩,
    ⟨0xFD#8, 0x89#8, fun _ _ => .advStopLast⟩,
    ⟨0xFC#8, 0x8C#8, fun _ _ => .advDone⟩ ]

/-- The rows of FRESET and MEASURE (30_encoding R69). -/
def framerRows : List Row :=
  [ ⟨0xFF#8, 0x90#8, fun buffer len => .fresetLen buffer len⟩,
    ⟨0xFF#8, 0x98#8, fun buffer _ => .fresetMeasure buffer⟩,
    ⟨0xFF#8, 0xA0#8, fun buffer _ => .measure buffer⟩ ]

/-- The seventeen rows of spec/opcode_table.json. -/
def rows : List Row := contextRows ++ advanceRows ++ framerRows

/-- The row's pattern fits the event word. -/
def Row.matches (r : Row) (ev : Byte) : Bool := ev &&& r.mask == r.word

/-- `ev[7:4]`, the operation code. -/
def opOf (ev : Byte) : BitVec 4 := ev.extractLsb' 4 4

/-- `ev[3:0]`, the selector. -/
def subOf (ev : Byte) : BitVec 4 := ev.extractLsb' 0 4

/-- The name under which a word that fits no row is refused (30_encoding R71): a reserved operation code, or a
reserved selector of a code in use. -/
def rejectOf (ev : Byte) : Reject :=
  if opOf ev = 0x0#4 ∨ 0xB#4 ≤ opOf ev then .reservedOp (opOf ev) else .reservedSub (opOf ev) (subOf ev)

/-- The decoder: the operation an event names, or the name under which it is refused. -/
def decode (e : Event) : Except Reject Instr :=
  match rows.find? (fun r => r.matches e.ev) with
  | some r => .ok (r.build e.buffer e.len)
  | none => .error (rejectOf e.ev)

/-- The event word of an operation; a bit that the row does not examine is 0. -/
def Instr.word : Instr → Byte
  | .init => 0x10#8
  | .writeLen _ _ => 0x20#8
  | .writeMeasure _ => 0x28#8
  | .poll => 0x30#8
  | .start => 0x40#8
  | .stop => 0x50#8
  | .tcycle => 0x60#8
  | .isr => 0x70#8
  | .advStart => 0x80#8
  | .advDataBit => 0x84#8
  | .advDataEnd => 0x86#8
  | .advStopNext => 0x88#8
  | .advStopLast => 0x89#8
  | .advDone => 0x8C#8
  | .fresetLen _ _ => 0x90#8
  | .fresetMeasure _ => 0x98#8
  | .measure _ => 0xA0#8

/-- What an operation puts on the lane of the buffer address. -/
def Instr.bufferLane : Instr → Nat
  | .init => 0
  | .writeLen buffer _ => buffer
  | .writeMeasure buffer => buffer
  | .poll => 0
  | .start => 0
  | .stop => 0
  | .tcycle => 0
  | .isr => 0
  | .advStart => 0
  | .advDataBit => 0
  | .advDataEnd => 0
  | .advStopNext => 0
  | .advStopLast => 0
  | .advDone => 0
  | .fresetLen buffer _ => buffer
  | .fresetMeasure buffer => buffer
  | .measure buffer => buffer

/-- What an operation puts on the lane of the explicit length. -/
def Instr.lenLane : Instr → Nat
  | .init => 0
  | .writeLen _ len => len
  | .writeMeasure _ => 0
  | .poll => 0
  | .start => 0
  | .stop => 0
  | .tcycle => 0
  | .isr => 0
  | .advStart => 0
  | .advDataBit => 0
  | .advDataEnd => 0
  | .advStopNext => 0
  | .advStopLast => 0
  | .advDone => 0
  | .fresetLen _ len => len
  | .fresetMeasure _ => 0
  | .measure _ => 0

/-- The encoder. -/
def encode (i : Instr) : Event := { ev := i.word, buffer := i.bufferLane, len := i.lenLane }

/-- An event as one number: the event word in bits 7..0, then `ADDR_W` bits of buffer, then `LEN_W` bits of length
(DESIGN CHOICE, safe, log 10: the spec gives the operands no bits). -/
def Event.toBits (p : Params) (e : Event) : Nat :=
  e.ev.toNat + 2 ^ 8 * (e.buffer + 2 ^ p.addrW * e.len)

/-- The event that a number stands for under the numbering of `Event.toBits`; higher bits are not looked at. -/
def Event.ofBits (p : Params) (w : Nat) : Event :=
  { ev := BitVec.ofNat 8 w
    buffer := w / 2 ^ 8 % 2 ^ p.addrW
    len := w / 2 ^ 8 / 2 ^ p.addrW % 2 ^ p.lenW }

/-- The event of an opcode-table row: `w` has `nbits` bits, every bit above them is 0. -/
def Event.ofTableWord (p : Params) (nbits w : Nat) : Event := Event.ofBits p (w % 2 ^ nbits)

/-- The instruction the decoder reads from an opcode-table word, with the widths of the reset parameters. -/
def decodeTableWord (nbits w : Nat) : Option Instr :=
  match decode (Event.ofTableWord Config.params nbits w) with
  | .ok i => some i
  | .error _ => none

end Sys2Proof
end

