-- ==== Sys2Proof/Machine/State.lean ====
section
/-! DEFINITION. The state of SUART-TX: the tuple of 10_state R10, the arguments of the step relation that 10_state R31
lists (held here because the host's step takes the state alone, log 1), and the model's own bookkeeping. Also the
faults (60_exceptions R141), the refusals, and the state at reset (70_reset R170). -/

namespace Sys2Proof.Machine

/-- `F.phase` (10_state R15). -/
inductive Phase where
  | start
  | data
  | stop
  | done
  deriving DecidableEq, Repr

/-- The result of ADVANCE (30_encoding R62): ZERO, ONE or END. -/
inductive Symbol where
  | zero
  | one
  | endOfStream
  deriving DecidableEq, Repr

/-- A level of the pin (30_encoding R64): low is written 0, high is written 1. -/
inductive Level where
  | low
  | high
  deriving DecidableEq, Repr

/-- `PIN.dir` (10_state R24): `in` or `out`. -/
inductive PinDir where
  | input
  | output
  deriving DecidableEq, Repr

/-- `mc`, where the main context stands (10_state R26). -/
inductive MainState where
  | powerOn
  | ready
  | waiting
  deriving DecidableEq, Repr

/-- What an ADVANCE or MEASURE performed by itself returned (40_framer R81, R82; log 11). -/
inductive Result where
  | symbol (s : Symbol)
  | count (n : Nat)
  deriving DecidableEq, Repr

/-- The Bit Framer's registers (10_state R11 to R15). `bitIndex` has nine values, as 10_state R14 asks. -/
structure Framer where
  buf : Nat
  length : Nat
  byteIndex : Nat
  bitIndex : Fin 9
  phase : Phase
  deriving DecidableEq, Repr

/-- The controller's flag (10_state R18). -/
structure Controller where
  busy : Bool
  deriving DecidableEq, Repr

/-- The timer (10_state R19 to R23). -/
structure Timer where
  run : Bool
  cnt : Nat
  period : Nat
  irqEn : Bool
  irqPend : Bool
  deriving DecidableEq, Repr

/-- The output pin (10_state R24, R25). -/
structure Pin where
  dir : PinDir
  level : Level
  deriving DecidableEq, Repr

/-- The host's memory: the bytes that differ from what an unlisted address reads as, addresses strictly rising
(Machine/Ops.lean; log 6). -/
abbrev Memory := List Host.Cell

/-- One entry of the schedule: which agent moves next (00_scope R6), or what the outside does (70_reset R190).
DESIGN CHOICE, safe, log 8: the spec fixes no order between main context and timer. -/
inductive Move where
  /-- the main context takes its next operation -/
  | main
  /-- the timer takes one cycle -/
  | timer
  /-- a second caller makes a call (60_exceptions R144; log 24): inside a `write` it faults, elsewhere it has no move, so
  it never changes the block -/
  | secondCaller (e : Event)
  /-- the host changes one byte of its memory (70_reset R190, "after `write` returns") -/
  | hostStore (addr : Nat) (value : Byte)
  /-- the platform sets the global interrupt enable `GIE` (10_state R31; log 14) -/
  | setGie (on : Bool)
  deriving DecidableEq, Repr

/-- The six model faults of 60_exceptions R141. Each is SAFE: the model stops where the source calls the use
undefined or forbids it. -/
inductive Fault where
  /-- raised by WRITE when `mc = PowerOn` (60_exceptions R142); safe -/
  | useBeforeInit
  /-- raised by INIT when `mc` is Ready or Waiting (60_exceptions R143); safe -/
  | doubleInit
  /-- raised by WRITE when `mc = Waiting` (60_exceptions R144); safe -/
  | reentrantWrite
  /-- raised by ADV.DATA.BIT at an index not below the length, recording the index, or by a read at an address that
  does not fit `ADDR_W` bits, recording the address (60_exceptions R145); safe -/
  | bufferOutOfRange (position : Nat)
  /-- raised by MEASURE when no marker is found, recording the buffer address (60_exceptions R146; log 17); safe -/
  | unterminated (buffer : Nat)
  /-- raised by TCYCLE when a period ends with the last request unserved (60_exceptions R147); safe -/
  | timerOverrun
  deriving DecidableEq, Repr

/-- Why the model gives a step no meaning. Each is SAFE: nothing is claimed of what the hardware does then. -/
inductive Refusal where
  /-- raised by exec for an operation that has no meaning yet; safe (no arm of exec raises it) -/
  | notModelled (mnemonic : String)
  /-- raised by an operation performed where its rule's "Enabled when" does not hold; the spec gives it no move there
  (log 12); safe -/
  | notEnabled (mnemonic : String)
  /-- raised by the step for an event word that names no operation (30_encoding R71); safe -/
  | undecodable (why : Reject)
  /-- raised by the step for an operand that does not fit its width (30_encoding R68); safe -/
  | illFormed (mnemonic : String)
  /-- raised by the step when the host's program holds an operation that is no call (30_encoding R72; log 19); safe -/
  | notAHostCall (mnemonic : String)
  /-- raised by the step when the main context is to move and the host makes no call (70_reset R170; log 18); safe -/
  | noCall
  /-- raised by the step when the host would change memory during a `write` (20_memory R42, 93 U1; log 15); safe at the
  step itself -/
  | storeDuringWrite
  /-- raised by the step when a second caller would act outside a `write` (60_exceptions R148; log 24); safe -/
  | noSecondCaller
  /-- raised by the step when the host would store outside the address space (20_memory R41; log 15); safe -/
  | storeOutOfRange (addr : Nat)
  deriving DecidableEq, Repr

/-- The state. -/
structure State where
  /-- the Bit Framer -/
  F : Framer
  /-- the Transmission Controller's flag -/
  C : Controller
  /-- the timer -/
  T : Timer
  /-- the output pin -/
  PIN : Pin
  /-- where the main context stands -/
  mc : MainState
  /-- ghost: the symbols the handler obtained, oldest first (10_state R28) -/
  SYM : List Symbol
  /-- ghost: the levels the handler drove, oldest first (10_state R29) -/
  W : List Level
  /-- `Mem`, the host's memory (10_state R31) -/
  mem : Memory
  /-- `GIE`, the processor's global interrupt enable (10_state R31) -/
  gie : Bool
  /-- the parameters of 00_scope R5 (10_state R31) -/
  params : Params
  /-- the model's own: the calls the main context still has to make (log 9) -/
  program : List Event
  /-- the model's own: who moves next, oldest first (log 8) -/
  schedule : List Move
  /-- the model's own: how many free values were drawn (log 5, log 8) -/
  draws : Nat
  /-- the model's own: what the last ADVANCE or MEASURE performed by itself returned (log 11) -/
  result : Option Result
  /-- the model's own, and no part of the machine: one event that the host's question `withFetchWord` placed, which the
  next step performs by itself; none at reset, and no step places one (log 11) -/
  offered : Option Event
  deriving DecidableEq, Repr

/-- What the step finds to do: run an operation, a move of the outside that is no operation, or nothing it gives a
meaning to. -/
inductive Fetched where
  | run (i : Instr) (s : State)
  | moved (s : State)
  | stop (r : Refusal)
  deriving DecidableEq, Repr

/-- Power-on (70_reset R170): `mc = PowerOn`, `SYM` and `W` empty. The spec leaves every other element of the block
unspecified; the values here are the model's (DESIGN CHOICE, unsafe, log 4; memory: log 6; GIE: log 14; parameters:
log 2 and log 3). -/
def State.reset : State :=
  { F := { buf := 0, length := 0, byteIndex := 0, bitIndex := 0, phase := .start }
    C := { busy := false }
    T := { run := false, cnt := 0, period := 0, irqEn := false, irqPend := false }
    PIN := { dir := .input, level := .low }
    mc := .powerOn
    SYM := []
    W := []
    mem := []
    gie := true
    params := Config.params
    program := []
    schedule := []
    draws := 0
    result := none
    offered := none }

end Sys2Proof.Machine
end

