-- ==== Sys2Proof/Machine/Ops.lean ====
section
/-! DEFINITION. The named operations over memory and registers, and the interrupt: the request, its entry and the
return from it (60_exceptions R150 to R155). -/

namespace Sys2Proof.Machine

/-! ### Memory (20_memory) -/

/-- What an address that the list does not name reads as. `Mem` is total (10_state R31), so every content of memory is
such a list; that memory at reset is all zero is DESIGN CHOICE, unsafe, log 6. -/
def Memory.unlisted : Byte := 0#8

/-- The byte at an address. -/
def Memory.read : Memory → Nat → Byte
  | [], _ => Memory.unlisted
  | (a, b) :: m, x => if a = x then b else Memory.read m x

/-- Put a byte in front of a list unless the list need not name it. -/
def Memory.enter (x : Nat) (v : Byte) (m : Memory) : Memory :=
  if v = Memory.unlisted then m else (x, v) :: m

/-- The host stores one byte (70_reset R190). The block itself never writes memory (20_memory R54). -/
def Memory.write : Memory → Nat → Byte → Memory
  | [], x, v => Memory.enter x v []
  | (a, b) :: m, x, v =>
    if x < a then Memory.enter x v ((a, b) :: m)
    else if x = a then Memory.enter x v m
    else (a, b) :: Memory.write m x v

/-- Every listed address is at least `least`, addresses rise strictly, and no entry equals what an unlisted address
reads as. -/
def Memory.wfFrom : Nat → Memory → Bool
  | _, [] => true
  | least, (a, b) :: m => decide (least ≤ a) && decide (b ≠ Memory.unlisted) && Memory.wfFrom (a + 1) m

/-- The canonical form of memory. -/
def Memory.wf (m : Memory) : Bool := Memory.wfFrom 0 m

/-- Every listed address lies in the address space of `ADDR_W` bits. -/
def Memory.within (p : Params) (m : Memory) : Bool := m.all (fun c => decide (c.1 < 2 ^ p.addrW))

/-- `MemRead(addr, 1)` (20_memory R41): the byte, or `BufferOutOfRange` at an address that does not fit `ADDR_W` bits. -/
def memRead (p : Params) (m : Memory) (addr : Nat) : Except Fault Byte :=
  if addr < 2 ^ p.addrW then .ok (m.read addr) else .error (.bufferOutOfRange addr)

/-! ### Registers (10_state) -/

/-- Write the framer's registers. -/
def State.setFramer (s : State) (f : Framer) : State := { s with F := f }

/-- Write `C.busy`. -/
def State.setBusy (s : State) (b : Bool) : State := { s with C := { busy := b } }

/-- Write the timer's registers. -/
def State.setTimer (s : State) (t : Timer) : State := { s with T := t }

/-- Write the pin's direction and level. -/
def State.setPin (s : State) (p : Pin) : State := { s with PIN := p }

/-- Write `mc`. -/
def State.setMc (s : State) (c : MainState) : State := { s with mc := c }

/-- Append one symbol to the ghost log `SYM` (10_state R28). -/
def State.logSymbol (s : State) (y : Symbol) : State := { s with SYM := s.SYM ++ [y] }

/-- Append one level to the ghost log `W` (10_state R29). -/
def State.logLevel (s : State) (l : Level) : State := { s with W := s.W ++ [l] }

/-- The host's memory becomes `m`. -/
def State.setMem (s : State) (m : Memory) : State := { s with mem := m }

/-- `GIE` becomes `b` (10_state R31; log 14). -/
def State.setGie (s : State) (b : Bool) : State := { s with gie := b }

/-- The calls still to make (log 9). -/
def State.setProgram (s : State) (p : List Event) : State := { s with program := p }

/-- The moves still to come (log 8). -/
def State.setSchedule (s : State) (q : List Move) : State := { s with schedule := q }

/-- One more free value is drawn (log 5, log 8). -/
def State.countDraw (s : State) : State := { s with draws := s.draws + 1 }

/-- What an operation performed by itself returned (log 11). -/
def State.setResult (s : State) (r : Result) : State := { s with result := some r }

/-- The event that the host's question placed, if any (log 11). -/
def State.setOffered (s : State) (o : Option Event) : State := { s with offered := o }

/-- Drive the pin to a level and log it (42_timer_handler R122: `PIN.level <- l ; W <- W ++ [l]`). -/
def State.drive (s : State) (l : Level) : State := (s.setPin { s.PIN with level := l }).logLevel l

/-- The address that stands for an unspecified one: a free value that fits `ADDR_W` bits
(41_controller R100, 93 U11; log 5). -/
def State.freeBuffer (s : State) : Nat := Config.freeAddr s.draws % 2 ^ s.params.addrW

/-! ### Power-on (70_reset R170) -/

/-- "While `mc = PowerOn` only INIT is enabled" (70_reset R170, 10_state R32): before INIT an operation that only runs
inside another one is refused by name (log 12), from INIT on it does what it does. -/
def State.afterInit (s : State) (mnemonic : String) (o : Host.Outcome State Fault Refusal) :
    Host.Outcome State Fault Refusal :=
  if s.mc = .powerOn then .refused (.notEnabled mnemonic) else o

/-! ### The timer interrupt (60_exceptions R150 to R155) -/

/-- `irq = T.irq_pend and T.irq_en` (42_timer_handler R121). -/
def State.irq (s : State) : Bool := s.T.irqPend && s.T.irqEn

/-- The request is to be served: `irq and GIE`, and the block has been initialised (42_timer_handler R122; while
`mc = PowerOn` ISR is not enabled, 10_state R32). -/
def State.isrEnabled (s : State) : Bool := decide (s.mc ≠ .powerOn) && s.irq && s.gie

/-- TAKING THE INTERRUPT (60_exceptions R153): "nothing of the block is saved or changed by the entry itself: `mc`,
`C.busy`, the framer, the timer and the pin are as the main context left them". What the processor saves of its own
registers, and where it finds the handler, are outside the block (00_scope R3 item h; log 20). -/
def State.enterHandler (s : State) : State := s

/-- RETURNING FROM IT (60_exceptions R154): "Nothing is restored because nothing was saved; the handler's effects
remain" (log 20). -/
def State.returnFromHandler (s : State) : State := s

end Sys2Proof.Machine
end

