-- ==== Sys2Proof/Machine/Flags.lean ====
section
/-! DEFINITION. The block's two flags (10_state R27): `C.busy`, set by WRITE, cleared by STOP, tested by POLL; and
`T.irq_pend`, set by TCYCLE at the end of a period, cleared by ISR. No operation computes a carry, zero, sign or
overflow flag. -/

namespace Sys2Proof.Machine

/-- WRITE's `C.busy <- true` (41_controller R101). -/
def State.raiseBusy (s : State) : State := s.setBusy true

/-- STOP's `C.busy <- false` (41_controller R104). -/
def State.clearBusy (s : State) : State := s.setBusy false

/-- POLL's one indivisible read of `C.busy` (41_controller R102, 20_memory R46). -/
def State.readBusy (s : State) : Bool := s.C.busy

/-- TCYCLE's `T.cnt <- 0 ; T.irq_pend <- true` at the end of a period (42_timer_handler R120). -/
def Timer.endPeriod (t : Timer) : Timer := { t with cnt := 0, irqPend := true }

/-- ISR's first action, `T.irq_pend <- false` (42_timer_handler R122; the hardware does not clear it on entry,
60_exceptions R151). -/
def State.clearPending (s : State) : State := s.setTimer { s.T with irqPend := false }

end Sys2Proof.Machine
end

