-- ==== Sys2Proof/Machine/Operands.lean ====
section
/-! DEFINITION. Operand assembly (30_encoding section 4): the two forms of the length operand, the byte's address, the
data bit, the arm selector of ADVANCE, and the codes and levels of the enumerations. -/

namespace Sys2Proof.Machine

/-! ### The length operand (30_encoding R68) -/

/-- How many positions MEASURE may look at: it stops when `i >= 2^LEN_W` or `buffer + i >= 2^ADDR_W`
(40_framer R81). -/
def measureLimit (p : Params) (buffer : Nat) : Nat := min (2 ^ p.lenW) (2 ^ p.addrW - buffer)

/-- The loop of MEASURE from position `i`, with `left` positions left. The terminating marker is the byte 0x00
(PRESUMED by the spec itself, G1; unsafe, log 7). -/
def measureFrom (m : Memory) (buffer : Nat) : (left i : Nat) → Option Nat
  | 0, _ => none
  | left + 1, i => if m.read (buffer + i) = 0x00#8 then some i else measureFrom m buffer left (i + 1)

/-- MEASURE's result (40_framer R81): the count of bytes before the first marker, or `Unterminated(buffer)`. -/
def measureBuffer (p : Params) (m : Memory) (buffer : Nat) : Except Fault Nat :=
  match measureFrom m buffer (measureLimit p buffer) 0 with
  | some n => .ok n
  | none => .error (.unterminated buffer)

/-- The length operand: `some n` is the explicit count, `none` is "measure from terminator". -/
def resolveLength (p : Params) (m : Memory) (buffer : Nat) : Option Nat → Except Fault Nat
  | some n => .ok n
  | none => measureBuffer p m buffer

/-! ### The data bit (30_encoding R67) -/

/-- The address of the current byte, `F.buf + F.byte_index`, in the integers (20_memory R41). -/
def Framer.byteAddress (f : Framer) : Nat := f.buf + f.byteIndex

/-- `(byte >> i) & 1` (30_encoding R67). -/
def dataBit (b : Byte) (i : Nat) : Byte := (b >>> i) &&& 1#8

/-- The symbol of a data bit: ONE when the bit is 1, else ZERO (40_framer R84). -/
def bitSymbol (bit : Byte) : Symbol := if bit = 1#8 then .one else .zero

/-! ### Enumerations (30_encoding R61 to R64, 60_exceptions R141) -/

/-- The code of a phase (30_encoding R61). -/
def Phase.code : Phase → BitVec 2
  | .start => 0b00#2
  | .data => 0b01#2
  | .stop => 0b10#2
  | .done => 0b11#2

/-- The code of a symbol (30_encoding R62). -/
def Symbol.code : Symbol → BitVec 2
  | .zero => 0b00#2
  | .one => 0b01#2
  | .endOfStream => 0b10#2

/-- The code of a model fault (60_exceptions R141). The codes are the spec's own (92_eei_decisions D13); no operation reads
them. -/
def Fault.code : Fault → Nat
  | .useBeforeInit => 1
  | .doubleInit => 2
  | .reentrantWrite => 3
  | .bufferOutOfRange _ => 4
  | .unterminated _ => 5
  | .timerOverrun => 6

/-- The number a level is written as (30_encoding R64). -/
def Level.bit : Level → BitVec 1
  | .low => 0#1
  | .high => 1#1

/-- The level a symbol drives; END drives none (30_encoding R63). -/
def Symbol.level? : Symbol → Option Level
  | .zero => some .low
  | .one => some .high
  | .endOfStream => none

/-! ### The arm selector (30_encoding R70) -/

/-- `b8`: 1 when `F.bit_index >= 8`. -/
def Framer.b8 (f : Framer) : BitVec 1 := if 8 ≤ f.bitIndex.val then 1#1 else 0#1

/-- `last`: 1 when `F.byte_index = F.length`. -/
def Framer.last (f : Framer) : BitVec 1 := if f.byteIndex = f.length then 1#1 else 0#1

/-- `sub = {phase[1:0], b8, last}`. -/
def Framer.selector (f : Framer) : BitVec 4 := f.phase.code ++ f.b8 ++ f.last

/-- The event word that names the arm ADVANCE takes in this state, op 0x8 (30_encoding R69, R70). -/
def Framer.advanceWord (f : Framer) : Byte := 0x8#4 ++ f.selector

end Sys2Proof.Machine
end

