-- ==== Sys2Proof/Machine/Framer.lean ====
section
/-! DEFINITION. The Bit Framer's operations (40_framer): FRESET, MEASURE and the six arms of ADVANCE, first as functions
of the framer and of memory ("No knowledge of timing or hardware", R82), then as meanings. -/

namespace Sys2Proof.Machine

/-! ### The framer's own functions -/

/-- FRESET's five assignments (40_framer R80). -/
def Framer.over (buffer length : Nat) : Framer :=
  { buf := buffer, length := length, byteIndex := 0, bitIndex := 0, phase := .start }

/-- FRESET (40_framer R80). -/
def freset (p : Params) (m : Memory) (buffer : Nat) (len : Option Nat) : Except Fault Framer :=
  match resolveLength p m buffer len with
  | .ok n => .ok (Framer.over buffer n)
  | .error e => .error e

/-- ADV.START (40_framer R83). -/
def Framer.startBit (f : Framer) : Symbol × Framer := (.zero, { f with bitIndex := 0, phase := .data })

/-- `F.bit_index + 1` on a value below 8 (40_framer R89 item a). -/
def nextBit (i : Fin 9) (h : i.val < 8) : Fin 9 := ⟨i.val + 1, by omega⟩

/-- ADV.DATA.BIT (40_framer R84), for a `bit_index` below 8. -/
def Framer.sendBit (p : Params) (m : Memory) (f : Framer) (h : f.bitIndex.val < 8) : Except Fault (Symbol × Framer) :=
  if f.length ≤ f.byteIndex then .error (.bufferOutOfRange f.byteIndex)
  else
    match memRead p m f.byteAddress with
    | .ok b => .ok (bitSymbol (dataBit b f.bitIndex.val), { f with bitIndex := nextBit f.bitIndex h })
    | .error e => .error e

/-- ADV.DATA.END (40_framer R85): no memory read. -/
def Framer.endByte (f : Framer) : Symbol × Framer :=
  (.one, { f with byteIndex := f.byteIndex + 1, bitIndex := 0, phase := .stop })

/-- ADV.STOP.NEXT (40_framer R86). -/
def Framer.nextByte (f : Framer) : Symbol × Framer := (.one, { f with phase := .start })

/-- ADV.STOP.LAST (40_framer R87). -/
def Framer.endStream (f : Framer) : Symbol × Framer := (.endOfStream, { f with phase := .done })

/-- ADV.DONE (40_framer R88). -/
def Framer.stayDone (f : Framer) : Symbol × Framer := (.endOfStream, f)

/-- ADVANCE (40_framer R82): the dispatch over `F.phase`, the symbol returned and the framer after the call. -/
def Framer.advance (p : Params) (m : Memory) (f : Framer) : Except Fault (Symbol × Framer) :=
  match f.phase with
  | .start => .ok f.startBit
  | .data => if h : f.bitIndex.val < 8 then f.sendBit p m h else .ok f.endByte
  | .stop => if f.byteIndex = f.length then .ok f.endStream else .ok f.nextByte
  | .done => .ok f.stayDone

/-! ### The meanings -/

/-- An arm of ADVANCE performed by itself: the framer moves on, the symbol is the operation's result (log 11). -/
def State.returnSymbol (s : State) (a : Symbol × Framer) : State := (s.setFramer a.2).setResult (.symbol a.1)

/-- ADV.START (40_framer R83), enabled in phase START. -/
def execAdvStart (s : State) : Host.Outcome State Fault Refusal :=
  s.afterInit "ADV.START"
    (if s.F.phase = .start then .next (s.returnSymbol s.F.startBit) else .refused (.notEnabled "ADV.START"))

/-- ADV.DATA.BIT (40_framer R84), enabled in phase DATA with `bit_index < 8`. -/
def execAdvDataBit (s : State) : Host.Outcome State Fault Refusal :=
  s.afterInit "ADV.DATA.BIT"
    (if s.F.phase = .data then
      if h : s.F.bitIndex.val < 8 then
        match s.F.sendBit s.params s.mem h with
        | .ok a => .next (s.returnSymbol a)
        | .error e => .fault e
      else .refused (.notEnabled "ADV.DATA.BIT")
    else .refused (.notEnabled "ADV.DATA.BIT"))

/-- ADV.DATA.END (40_framer R85), enabled in phase DATA with `bit_index = 8`. -/
def execAdvDataEnd (s : State) : Host.Outcome State Fault Refusal :=
  s.afterInit "ADV.DATA.END"
    (if s.F.phase = .data ∧ s.F.bitIndex = 8 then .next (s.returnSymbol s.F.endByte)
    else .refused (.notEnabled "ADV.DATA.END"))

/-- ADV.STOP.NEXT (40_framer R86), enabled in phase STOP with `byte_index != length`. -/
def execAdvStopNext (s : State) : Host.Outcome State Fault Refusal :=
  s.afterInit "ADV.STOP.NEXT"
    (if s.F.phase = .stop ∧ s.F.byteIndex ≠ s.F.length then .next (s.returnSymbol s.F.nextByte)
    else .refused (.notEnabled "ADV.STOP.NEXT"))

/-- ADV.STOP.LAST (40_framer R87), enabled in phase STOP with `byte_index = length`. -/
def execAdvStopLast (s : State) : Host.Outcome State Fault Refusal :=
  s.afterInit "ADV.STOP.LAST"
    (if s.F.phase = .stop ∧ s.F.byteIndex = s.F.length then .next (s.returnSymbol s.F.endStream)
    else .refused (.notEnabled "ADV.STOP.LAST"))

/-- ADV.DONE (40_framer R88), enabled in phase DONE. -/
def execAdvDone (s : State) : Host.Outcome State Fault Refusal :=
  s.afterInit "ADV.DONE"
    (if s.F.phase = .done then .next (s.returnSymbol s.F.stayDone) else .refused (.notEnabled "ADV.DONE"))

/-- FRESET by itself (40_framer R80). -/
def State.resetFramer (s : State) (buffer : Nat) (len : Option Nat) : Host.Outcome State Fault Refusal :=
  match freset s.params s.mem buffer len with
  | .ok f => .next (s.setFramer f)
  | .error e => .fault e

/-- FRESET with an explicit length (40_framer R80). -/
def execFresetLen (buffer len : Nat) (s : State) : Host.Outcome State Fault Refusal :=
  s.afterInit "FRESET.LEN" (s.resetFramer buffer (some len))

/-- FRESET with the length measured (40_framer R80). -/
def execFresetMeasure (buffer : Nat) (s : State) : Host.Outcome State Fault Refusal :=
  s.afterInit "FRESET.MEASURE" (s.resetFramer buffer none)

/-- MEASURE by itself (40_framer R81): the count is the operation's result (log 11). -/
def execMeasure (buffer : Nat) (s : State) : Host.Outcome State Fault Refusal :=
  s.afterInit "MEASURE"
    (match measureBuffer s.params s.mem buffer with
    | .ok n => .next (s.setResult (.count n))
    | .error e => .fault e)

end Sys2Proof.Machine
end

