-- ==== Sys2Proof/Machine/Controller.lean ====
section
/-! DEFINITION. The Transmission Controller's operations (41_controller): INIT, WRITE in its two forms, POLL, START and
STOP. -/

namespace Sys2Proof.Machine

/-- START's two assignments (41_controller R103). -/
def State.startTimer (s : State) : State := s.setTimer { s.T with cnt := 0, run := true }

/-- STOP's three assignments (41_controller R104). -/
def State.stopTransmission (s : State) : State := (s.setTimer { s.T with run := false, cnt := 0 }).clearBusy

/-- INIT's assignments (41_controller R100). FRESET is called with an unspecified buffer, a free value (log 5), and
length 0. -/
def State.initialise (s : State) : State :=
  ((((s.setPin { dir := .output, level := .high }).setTimer
    { run := false, cnt := 0, period := s.params.period, irqEn := true, irqPend := false }).clearBusy.setFramer
    (Framer.over s.freeBuffer 0)).setMc .ready).countDraw

/-- INIT (41_controller R100): "Called exactly once, before any `write`"; a second one raises `DoubleInit`
(60_exceptions R143). -/
def execInit (s : State) : Host.Outcome State Fault Refusal :=
  match s.mc with
  | .powerOn => .next s.initialise
  | .ready => .fault .doubleInit
  | .waiting => .fault .doubleInit

/-- WRITE after FRESET (41_controller R101): a length of 0 returns at once, otherwise `busy`, START, and wait. -/
def State.engage (s : State) (f : Framer) : State :=
  if f.length = 0 then s.setFramer f else ((s.setFramer f).raiseBusy.startTimer).setMc .waiting

/-- WRITE (41_controller R101) with either form of the length operand. -/
def State.enterWrite (s : State) (buffer : Nat) (len : Option Nat) : Host.Outcome State Fault Refusal :=
  match s.mc with
  | .powerOn => .fault .useBeforeInit
  | .waiting => .fault .reentrantWrite
  | .ready =>
    match freset s.params s.mem buffer len with
    | .ok f => .next (s.engage f)
    | .error e => .fault e

/-- WRITE with an explicit length (41_controller R101). -/
def execWriteLen (buffer len : Nat) (s : State) : Host.Outcome State Fault Refusal := s.enterWrite buffer (some len)

/-- WRITE with the length measured (41_controller R101). -/
def execWriteMeasure (buffer : Nat) (s : State) : Host.Outcome State Fault Refusal := s.enterWrite buffer none

/-- POLL (41_controller R102), enabled in `mc = Waiting`: `busy` false returns from `write`. -/
def execPoll (s : State) : Host.Outcome State Fault Refusal :=
  match s.mc with
  | .powerOn => .refused (.notEnabled "POLL")
  | .ready => .refused (.notEnabled "POLL")
  | .waiting => if s.readBusy then .next s else .next (s.setMc .ready)

/-- START (41_controller R103). -/
def execStart (s : State) : Host.Outcome State Fault Refusal := s.afterInit "START" (.next s.startTimer)

/-- STOP (41_controller R104). -/
def execStop (s : State) : Host.Outcome State Fault Refusal := s.afterInit "STOP" (.next s.stopTransmission)

end Sys2Proof.Machine
end

