-- ==== Sys2Proof/Machine/TimerHandler.lean ====
section
/-! DEFINITION. The timer's cycle and the Timer Interrupt Handler (42_timer_handler): TCYCLE and ISR. -/

namespace Sys2Proof.Machine

/-- One cycle of the counter (42_timer_handler R120). `T.cnt = T.period - 1` is written without the subtraction, so that
it reads as in the integers (log 16). -/
def Timer.cycle (t : Timer) : Except Fault Timer :=
  if t.run then
    if t.cnt + 1 = t.period then
      if t.irqPend then .error .timerOverrun else .ok t.endPeriod
    else .ok { t with cnt := t.cnt + 1 }
  else .ok t

/-- TCYCLE (42_timer_handler R120), enabled when `mc` is Ready or Waiting and ISR has no precedence. -/
def execTcycle (s : State) : Host.Outcome State Fault Refusal :=
  if s.mc = .powerOn ∨ s.isrEnabled = true then .refused (.notEnabled "TCYCLE")
  else
    match s.T.cycle with
    | .ok t => .next (s.setTimer t)
    | .error e => .fault e

/-- What the handler does with a symbol (42_timer_handler R122): drive the pin, or STOP. -/
def State.act (s : State) : Symbol → State
  | .zero => s.drive .low
  | .one => s.drive .high
  | .endOfStream => s.stopTransmission

/-- The handler after ADVANCE (42_timer_handler R122): the framer moves on, the symbol is logged and acted on. -/
def State.handle (s : State) (a : Symbol × Framer) : State := ((s.setFramer a.2).logSymbol a.1).act a.1

/-- ISR (42_timer_handler R122), enabled when the request is to be served: entry, clear pending, ADVANCE, act, return.
On a fault nothing of it takes effect. It takes no modelled time and runs to completion (92_eei_decisions D23; log 13). -/
def execIsr (s : State) : Host.Outcome State Fault Refusal :=
  if s.isrEnabled then
    match s.F.advance s.params s.mem with
    | .ok a => .next (s.enterHandler.clearPending.handle a).returnFromHandler
    | .error e => .fault e
  else .refused (.notEnabled "ISR")

end Sys2Proof.Machine
end

