-- ==== Sys2Proof/Machine/Dispatch.lean ====
section
/-! DEFINITION. The meaning of every operation: one arm per row of spec/opcode_table.json. -/

namespace Sys2Proof.Machine

def exec (i : Instr) (s : State) : Host.Outcome State Fault Refusal :=
  match i with
  | .init => Sys2Proof.Machine.execInit s
  | .writeLen buffer len => Sys2Proof.Machine.execWriteLen buffer len s
  | .writeMeasure buffer => Sys2Proof.Machine.execWriteMeasure buffer s
  | .poll => Sys2Proof.Machine.execPoll s
  | .start => Sys2Proof.Machine.execStart s
  | .stop => Sys2Proof.Machine.execStop s
  | .tcycle => Sys2Proof.Machine.execTcycle s
  | .isr => Sys2Proof.Machine.execIsr s
  | .advStart => Sys2Proof.Machine.execAdvStart s
  | .advDataBit => Sys2Proof.Machine.execAdvDataBit s
  | .advDataEnd => Sys2Proof.Machine.execAdvDataEnd s
  | .advStopNext => Sys2Proof.Machine.execAdvStopNext s
  | .advStopLast => Sys2Proof.Machine.execAdvStopLast s
  | .advDone => Sys2Proof.Machine.execAdvDone s
  | .fresetLen buffer len => Sys2Proof.Machine.execFresetLen buffer len s
  | .fresetMeasure buffer => Sys2Proof.Machine.execFresetMeasure buffer s
  | .measure buffer => Sys2Proof.Machine.execMeasure buffer s

end Sys2Proof.Machine
end

