-- ==== Sys2Proof/Machine/Schedule.lean ====
section
/-! DEFINITION. What the machine does next (00_scope R6, 42_timer_handler R121, 60_exceptions R152): the interrupt before
everything, then the schedule's next move, then a free choice between the agents that may move (log 8). -/

namespace Sys2Proof.Machine

/-- The calls of 30_encoding R72, the operations the host has (70_reset R190). -/
def isHostCall : Instr → Bool
  | .init => true
  | .writeLen _ _ => true
  | .writeMeasure _ => true
  | .poll => false
  | .start => false
  | .stop => false
  | .tcycle => false
  | .isr => false
  | .advStart => false
  | .advDataBit => false
  | .advDataEnd => false
  | .advStopNext => false
  | .advStopLast => false
  | .advDone => false
  | .fresetLen _ _ => false
  | .fresetMeasure _ => false
  | .measure _ => false

/-- Decode an event and check its operands against their widths. -/
def State.runEvent (s : State) (e : Event) : Fetched :=
  match decode e with
  | .ok i => if i.wf s.params then .run i s else .stop (.illFormed i.mnemonic)
  | .error r => .stop (.undecodable r)

/-- A call of the host's program: INIT or WRITE, and nothing else (log 19). -/
def State.runCall (s : State) (e : Event) : Fetched :=
  match s.runEvent e with
  | .run i t => if isHostCall i then .run i t else .stop (.notAHostCall i.mnemonic)
  | .moved t => .moved t
  | .stop r => .stop r

/-- The main context outside a `write` takes its program's next call (log 9); with no call left it has no operation
(log 18). -/
def State.nextCall (s : State) : Fetched :=
  match s.program with
  | [] => .stop .noCall
  | e :: rest => (s.setProgram rest).runCall e

/-- The main context's next operation: a POLL inside `write` (41_controller R102, R109), else the next call. -/
def State.mainMove (s : State) : Fetched :=
  match s.mc with
  | .powerOn => s.nextCall
  | .ready => s.nextCall
  | .waiting => .run .poll s

/-- With nothing scheduled the agents that may move take turns in an order nothing fixes, a free value
(41_controller R102, 92 D28; log 8). At power-on only the main context may move (70_reset R170); with no call left to
make, Ready leaves the timer alone. -/
def State.freeMove (s : State) : Fetched :=
  match s.mc with
  | .powerOn => s.mainMove
  | .ready =>
    if s.program = [] then .run .tcycle s
    else if Config.mainMovesFirst s.draws then s.countDraw.mainMove else .run .tcycle s.countDraw
  | .waiting => if Config.mainMovesFirst s.draws then s.countDraw.mainMove else .run .tcycle s.countDraw

/-- The host stores one byte: not during a `write` (20_memory R42), and inside the address space (20_memory R41;
log 15). -/
def State.hostStore (s : State) (addr : Nat) (value : Byte) : Fetched :=
  if s.mc = .waiting then .stop .storeDuringWrite
  else if addr < 2 ^ s.params.addrW then .moved (s.setMem (s.mem.write addr value))
  else .stop (.storeOutOfRange addr)

/-- A second caller makes a call inside a `write`, which faults (60_exceptions R144); outside one it has no move
(60_exceptions R148, 70_reset R182; log 24). -/
def State.secondCall (s : State) (e : Event) : Fetched :=
  if s.mc = .waiting then s.runCall e else .stop .noSecondCaller

/-- One move of the schedule, taken off it already. No move lets anything but the three agents of 00_scope R6 change an
element of the block (60_exceptions R148, 70_reset R182). -/
def State.takeMove (s : State) : Move → Fetched
  | .main => s.mainMove
  | .timer => .run .tcycle s
  | .secondCaller e => s.secondCall e
  | .hostStore addr value => s.hostStore addr value
  | .setGie on => .moved (s.setGie on)

/-- The schedule's next move, or a free one. -/
def State.nextMove (s : State) : Fetched :=
  match s.schedule with
  | [] => s.freeMove
  | m :: rest => (s.setSchedule rest).takeMove m

/-- What the machine does next. "While `irq and GIE` holds, the next step of the whole machine is ISR"
(42_timer_handler R121; log 13). An event that the host's question placed is performed once (log 11). -/
def State.fetch (s : State) : Fetched :=
  if s.isrEnabled then .run .isr s
  else
    match s.offered with
    | some e => (s.setOffered none).runEvent e
    | none => s.nextMove

/-! ### The host's question: one opcode-table word (log 9, log 11) -/

/-- The request is withdrawn where it would be served before anything else (42_timer_handler R121). -/
def State.withoutRequest (s : State) : State := if s.isrEnabled then s.clearPending else s

/-- From power-on to where INIT has run; elsewhere `mc` stays. -/
def State.pastPowerOn (s : State) (c : MainState) : State := if s.mc = .powerOn then s.setMc c else s

/-- The sequencing state put where an operation is selected. The block's program counter is `F.phase` with the rest of the
arm selector, and `mc` (00_scope R4, 10_state R15, 30_encoding R70); the handler is selected by its request
(42_timer_handler R122). What already selects the operation stays. -/
def State.select (s : State) : Instr → State
  | .init => (s.setMc .powerOn).withoutRequest
  | .writeLen _ _ => (s.setMc .ready).withoutRequest
  | .writeMeasure _ => (s.setMc .ready).withoutRequest
  | .poll => (s.setMc .waiting).withoutRequest
  | .start => (s.pastPowerOn .ready).withoutRequest
  | .stop => (s.pastPowerOn .waiting).withoutRequest
  | .tcycle => (s.pastPowerOn .ready).withoutRequest
  | .isr => ((s.pastPowerOn .waiting).setTimer { s.T with irqEn := true, irqPend := true }).setGie true
  | .advStart => ((s.pastPowerOn .waiting).setFramer { s.F with phase := .start }).withoutRequest
  | .advDataBit =>
    ((s.pastPowerOn .waiting).setFramer
      { s.F with
        phase := .data
        bitIndex := if s.F.bitIndex = 8 then 0 else s.F.bitIndex
        length := max s.F.length (s.F.byteIndex + 1) }).withoutRequest
  | .advDataEnd => ((s.pastPowerOn .waiting).setFramer { s.F with phase := .data, bitIndex := 8 }).withoutRequest
  | .advStopNext =>
    ((s.pastPowerOn .waiting).setFramer
      { s.F with
        phase := .stop
        length := if s.F.byteIndex = s.F.length then s.F.length + 1 else s.F.length }).withoutRequest
  | .advStopLast =>
    ((s.pastPowerOn .waiting).setFramer { s.F with phase := .stop, byteIndex := s.F.length }).withoutRequest
  | .advDone => ((s.pastPowerOn .waiting).setFramer { s.F with phase := .done }).withoutRequest
  | .fresetLen _ _ => (s.pastPowerOn .ready).withoutRequest
  | .fresetMeasure _ => (s.pastPowerOn .ready).withoutRequest
  | .measure _ => (s.pastPowerOn .ready).withoutRequest

/-- Offer an event: the next step performs it, unless the handler is to be served. -/
def State.offer (s : State) (e : Event) : State := s.setOffered (some e)

/-- Offer an opcode-table word and put the sequencing state where its operation is selected. The handler's own word needs
its request alone. A word that names no operation is offered as it is. -/
def State.offerTableWord (s : State) (nbits w : Nat) : State :=
  match decode (Event.ofTableWord s.params nbits w) with
  | .ok .isr => s.select .isr
  | .ok i => (s.select i).offer (Event.ofTableWord s.params nbits w)
  | .error _ => s.withoutRequest.offer (Event.ofTableWord s.params nbits w)

/-! ### The programmer's side (30_encoding R72) -/

/-- A call of the programmer's syntax: `init()`, `write(buffer, length)`, or `write(buffer)`, which measures. -/
inductive HostCall where
  | init
  | write (buffer : Nat) (len : Option Nat)
  deriving DecidableEq, Repr

/-- The operation a call enters (30_encoding R72, R68). -/
def HostCall.instr : HostCall → Instr
  | .init => .init
  | .write buffer (some len) => .writeLen buffer len
  | .write buffer none => .writeMeasure buffer

/-- Load a program: its encoding is the list of its calls' event words (95_test_vectors Part 3; log 9). -/
def State.loadProgram (s : State) (calls : List HostCall) : State :=
  s.setProgram (calls.map (fun c => encode c.instr))

/-- Put bytes in memory from an address on. -/
def Memory.load (m : Memory) (addr : Nat) : List Byte → Memory
  | [] => m
  | b :: rest => Memory.load (m.write addr b) (addr + 1) rest

end Sys2Proof.Machine
end

