-- ==== Sys2Proof/Machine/Step.lean ====
section
/-! DEFINITION. One step of the machine: find what comes next (Machine/Schedule.lean) and do it. -/

namespace Sys2Proof.Machine

/-- One step. -/
def step (s : State) : Host.Outcome State Fault Refusal :=
  match s.fetch with
  | .run i t => exec i t
  | .moved t => .next t
  | .stop r => .refused r

/-- `s` with an opcode-table word offered, and the sequencing state put where the word's operation is selected, so that
the next step performs it (log 9, log 11). -/
def State.withFetchWord (s : State) (nbits w : Nat) : State := s.offerTableWord nbits w

end Sys2Proof.Machine
end

