-- ==== Sys2Proof/Machine/Wire.lean ====
section
/-! DEFINITION. What the wire must carry, said without the machine (30_encoding section 3, 40_framer R91): the frame of a
byte, the closed form of the symbol stream, the whole stream, the framer's position in it, ADVANCE called again and again,
and what a driven pin shows. Claims compare the machine with these; no operation reads them. -/

namespace Sys2Proof.Machine

/-- The bytes of a buffer of `n` bytes (20_memory R41, R43: increasing addresses, `Mem(buf)` first). -/
def bufferBytes (m : Memory) (buf n : Nat) : List Byte := (List.range n).map (fun i => m.read (buf + i))

/-- `bits(x)`: the eight levels `x[0], x[1], ..., x[7]` (30_encoding R75). -/
def bitLevels (b : Byte) : List Level := (List.range 8).map (fun i => if b.getLsbD i then .high else .low)

/-- What every byte contributes: `0, bits, 1` (30_encoding R75). -/
def byteLevels (b : Byte) : List Level := .low :: (bitLevels b ++ [.high])

/-- The levels a `write` of these bytes appends to `W`: every byte contributes `0, bits, 1`, and a further `1` separates
consecutive bytes (30_encoding R75). -/
def wireLevels : List Byte → List Level
  | [] => []
  | [b] => byteLevels b
  | b :: c :: rest => byteLevels b ++ .high :: wireLevels (c :: rest)

/-- ZERO for 0, ONE for 1 (30_encoding R75). -/
def Level.symbol : Level → Symbol
  | .low => .zero
  | .high => .one

/-- The symbols a `write` of these bytes appends to `SYM`: the same with one END at the end; nothing for no bytes
(30_encoding R75). -/
def wireSymbols (bytes : List Byte) : List Symbol :=
  match bytes with
  | [] => []
  | b :: rest => (wireLevels (b :: rest)).map Level.symbol ++ [.endOfStream]

/-- The closed form of 30_encoding R66: the symbol of call `k` over `n` bytes, byte `j` being `b j`. -/
def closedSymbol (b : Nat → Byte) (n k : Nat) : Symbol :=
  if k < 11 * n then
    if k % 11 = 0 then .zero
    else if k % 11 ≤ 8 then (if (b (k / 11)).getLsbD (k % 11 - 1) then .one else .zero)
    else if k % 11 = 9 then .one
    else if k / 11 < n - 1 then .one
    else .endOfStream
  else .endOfStream

/-- `pos(F)` (40_framer R91). -/
def Framer.pos (f : Framer) : Nat :=
  match f.phase with
  | .start => 11 * f.byteIndex
  | .data => 11 * f.byteIndex + 1 + f.bitIndex.val
  | .stop => 11 * f.byteIndex - 1
  | .done => 11 * f.length

/-- The symbols of `k` calls of ADVANCE in a row, and the framer after them. -/
def Framer.calls (p : Params) (m : Memory) : Nat → Framer → Except Fault (List Symbol × Framer)
  | 0, f => .ok ([], f)
  | k + 1, f =>
    match f.advance p m with
    | .error e => .error e
    | .ok a =>
      match Framer.calls p m k a.2 with
      | .error e => .error e
      | .ok r => .ok (a.1 :: r.1, r.2)

/-- What the wire sees: the pin's level while the block drives it, nothing of the block's otherwise (10_state R25; `tx` of
92_eei_decisions D31). -/
def Pin.wire (p : Pin) : Option Level :=
  match p.dir with
  | .input => none
  | .output => some p.level

/-- `k` cycles of the timer's clock in a row (42_timer_handler R120). -/
def Timer.cycles : Nat → Timer → Except Fault Timer
  | 0, t => .ok t
  | k + 1, t =>
    match t.cycle with
    | .error e => .error e
    | .ok u => Timer.cycles k u

end Sys2Proof.Machine
end

