-- ==== Sys2Proof/Safety.lean ====
section
/-! DEFINITION. What counts as a sound state and as a use within the contract, in the terms the claims use: the
invariants of 10_state R30, what they rest on, the stream a `write` has put out so far, and the end of a run. -/

namespace Sys2Proof.Machine

/-- The framer is engaged over a non-empty buffer and its indices agree with its phase (10_state R16 table, R30 items f
and g). -/
structure Framer.Engaged (f : Framer) : Prop where
  nonempty : 1 ≤ f.length
  start : f.phase = .start → f.byteIndex < f.length
  data : f.phase = .data → f.byteIndex < f.length
  stop : f.phase = .stop → 1 ≤ f.byteIndex ∧ f.byteIndex ≤ f.length ∧ f.bitIndex = 0
  done : f.phase = .done → f.byteIndex = f.length ∧ f.bitIndex = 0

/-- 10_state R30, items (a) to (d) and (f) to (i), one field each or two. Item (e) speaks of a step, not of a state. -/
structure State.R30 (s : State) : Prop where
  bitIndexBound : s.F.bitIndex.val ≤ 8
  byteIndexBound : s.F.byteIndex ≤ s.F.length
  busyIsRun : s.C.busy = s.T.run
  readyIdle : s.mc = .ready → s.C.busy = false
  stoppedZero : s.T.run = false → s.T.cnt = 0
  runningFramer : s.T.run = true → 1 ≤ s.F.length ∧ (s.F.phase = .start ∨ s.F.phase = .data ∨ s.F.phase = .stop)
  dataIndex : s.F.phase = .data → s.F.byteIndex < s.F.length
  startIndex : s.F.phase = .start → s.T.run = true → s.F.byteIndex < s.F.length
  stopIndex : s.F.phase = .stop → 1 ≤ s.F.byteIndex ∧ s.F.byteIndex ≤ s.F.length
  doneIndex : s.F.phase = .done → s.F.byteIndex = s.F.length ∧ s.F.bitIndex = 0
  pinDriven : s.PIN.dir = .output
  idleHigh : s.T.run = false → s.PIN.level = .high
  irqEnabled : s.T.irqEn = true
  periodIsP : s.T.period = s.params.period

/-- What R30 rests on beside itself: a request only while the timer runs, the level and the bit index in STOP, the
framer of a `write` whose timer has stopped, and the widths of 00_scope R5. -/
structure State.Supporting (s : State) : Prop where
  pendingRuns : s.T.irqPend = true → s.T.run = true
  stopHigh : s.F.phase = .stop → s.PIN.level = .high ∧ s.F.bitIndex = 0
  stoppedPhase : s.T.run = false → s.F.phase = .start ∨ s.F.phase = .done
  finished : s.mc = .waiting → s.T.run = false → s.F.phase = .done ∧ 1 ≤ s.F.length
  cntBound : s.T.cnt < s.T.period
  bufWidth : s.F.buf < 2 ^ s.params.addrW
  lengthWidth : s.F.length < 2 ^ s.params.lenW
  legal : s.params.legal = true

/-- The invariant of the block: legal parameters, and from INIT on R30 and what it rests on. -/
structure State.BlockInv (s : State) : Prop where
  legal : s.params.legal = true
  rules : s.mc ≠ .powerOn → s.R30
  support : s.mc ≠ .powerOn → s.Supporting

/-- Memory is in its canonical form and inside the address space. -/
structure State.MemInv (s : State) : Prop where
  canonical : s.mem.wf = true
  inside : s.mem.within s.params = true

/-- The bytes the framer is engaged over. -/
def State.payload (s : State) : List Byte := bufferBytes s.mem s.F.buf s.F.length

/-- Inside a `write`, the last `pos(F)` entries of `W` and of `SYM` are the beginning of the stream of 30_encoding R75
(40_framer R91; at `pos = 11n` the levels, one fewer, are all there). -/
def State.StreamInv (s : State) : Prop :=
  s.mc = .waiting →
    ∃ (w : List Level) (y : List Symbol),
      s.W = w ++ (wireLevels s.payload).take s.F.pos ∧ s.SYM = y ++ (wireSymbols s.payload).take s.F.pos

/-- The operations that only run inside another one (00_scope R4 "internal ones"; "called by" in 40_framer R80 to R82,
41_controller R103, R104). -/
def isInternal : Instr → Bool
  | .init => false
  | .writeLen _ _ => false
  | .writeMeasure _ => false
  | .poll => false
  | .start => true
  | .stop => true
  | .tcycle => false
  | .isr => false
  | .advStart => true
  | .advDataBit => true
  | .advDataEnd => true
  | .advStopNext => true
  | .advStopLast => true
  | .advDone => true
  | .fresetLen _ _ => true
  | .fresetMeasure _ => true
  | .measure _ => true

/-- Only the main context and the timer are scheduled (00_scope R6, agents 1 and 2). -/
def Move.isAgent : Move → Bool
  | .main => true
  | .timer => true
  | .secondCaller _ => false
  | .hostStore _ _ => false
  | .setGie _ => false

/-- How many timer cycles a schedule holds. -/
def timerMoves (q : List Move) : Nat := q.count .timer

/-- THE RUN ENDS when the last `write` has returned (70_reset R187): `mc = Ready` and no call is left. -/
def State.runEnded (s : State) : Bool := decide (s.mc = .ready) && decide (s.program = [])

/-- The same state but for the model's own bookkeeping of calls, moves, draws and the offered event. -/
def State.Rescheduled (s t : State) : Prop :=
  t = { s with program := t.program, schedule := t.schedule, draws := t.draws, offered := t.offered }

/-- The same elements of the block (10_state R10). -/
def State.SameBlock (s t : State) : Prop :=
  t.F = s.F ∧ t.C = s.C ∧ t.T = s.T ∧ t.PIN = s.PIN ∧ t.mc = s.mc ∧ t.SYM = s.SYM ∧ t.W = s.W

/-- Another ghost history. Claims that nothing reads the ghost logs change them with this (10_state R28, R29). -/
def State.withHistory (s : State) (y : List Symbol) (w : List Level) : State := { s with SYM := y, W := w }

end Sys2Proof.Machine
end

