-- ==== Sys2Proof/Certificates/Slice0/Obligations.lean ====
section
/-! DEFINITION. The statements for the provers. Each docstring says which rule of spec/ the statement formalises. -/

open Sys2Proof Sys2Proof.Machine

/-! ### Encoding (30_encoding) -/

/-- 30_encoding R69, R70: for every row of the table one word written out bit by bit, whatever stands on the operand
lanes. The words are the spec's own labels (92_eei_decisions D12), the lanes the model's (log 10). -/
def Obligations.DecodesWordsOfEveryRow : Prop :=
  ∀ b l : Nat,
    decode ⟨0b00010000#8, b, l⟩ = .ok .init ∧
    decode ⟨0b00100000#8, b, l⟩ = .ok (.writeLen b l) ∧
    decode ⟨0b00101000#8, b, l⟩ = .ok (.writeMeasure b) ∧
    decode ⟨0b00110000#8, b, l⟩ = .ok .poll ∧
    decode ⟨0b01000000#8, b, l⟩ = .ok .start ∧
    decode ⟨0b01010000#8, b, l⟩ = .ok .stop ∧
    decode ⟨0b01100000#8, b, l⟩ = .ok .tcycle ∧
    decode ⟨0b01110000#8, b, l⟩ = .ok .isr ∧
    decode ⟨0b10000011#8, b, l⟩ = .ok .advStart ∧
    decode ⟨0b10000101#8, b, l⟩ = .ok .advDataBit ∧
    decode ⟨0b10000111#8, b, l⟩ = .ok .advDataEnd ∧
    decode ⟨0b10001010#8, b, l⟩ = .ok .advStopNext ∧
    decode ⟨0b10001011#8, b, l⟩ = .ok .advStopLast ∧
    decode ⟨0b10001111#8, b, l⟩ = .ok .advDone ∧
    decode ⟨0b10010000#8, b, l⟩ = .ok (.fresetLen b l) ∧
    decode ⟨0b10011000#8, b, l⟩ = .ok (.fresetMeasure b) ∧
    decode ⟨0b10100000#8, b, l⟩ = .ok (.measure b)

/-- 30_encoding R69, R70 and spec/opcode_table.json: under every parameter an operation whose operands fit their widths
is read back from the bits of its encoding, every operand at every value, and the bits fit the event word and its two
lanes. Where the operands' bits lie is the model's choice (log 10). -/
def Obligations.EncodedBitsDecodeBack : Prop :=
  ∀ (p : Params) (i : Instr), i.wf p = true →
    decode (Event.ofBits p ((encode i).toBits p)) = .ok i ∧
      (encode i).toBits p < 2 ^ (8 + p.addrW + p.lenW)

/-- 30_encoding R71 (the spec's own labels, 92_eei_decisions D12): operation codes 0x0 and 0xB to 0xF, and selectors the
table of R69 does not give, are refused by name and never performed, not even where the host's question offers one
(log 11); every other word names an operation; symbol code 0b11 is never produced. -/
def Obligations.ReservedWordsRefusedByName : Prop :=
  (∀ e : Event,
    let op := e.ev.extractLsb' 4 4
    let sub := e.ev.extractLsb' 0 4
    let reserved := op = 0x0#4 ∨ op = 0xB#4 ∨ op = 0xC#4 ∨ op = 0xD#4 ∨ op = 0xE#4 ∨ op = 0xF#4
    let listed := op = 0x8#4 ∨ sub = 0b0000#4 ∨ ((op = 0x2#4 ∨ op = 0x9#4) ∧ sub = 0b1000#4)
    (reserved → decode e = .error (.reservedOp op)) ∧
    (¬ reserved → ¬ listed → decode e = .error (.reservedSub op sub)) ∧
    (¬ reserved → listed → ∃ i, decode e = .ok i)) ∧
  (∀ (s : State) (e : Event) (r : Reject),
    decode e = .error r → s.isrEnabled = false → s.offered = some e → step s = .refused (.undecodable r)) ∧
  (∀ y : Symbol, y.code ≠ 0b11#2)

/-- 30_encoding R70: the selector copies `F.phase`, `b8` and `last` of the state the call finds; the word it makes names
the arm whose condition holds; the six patterns partition the sixteen selectors. Codes and word are the spec's own labels
(D12, D15, D21). -/
def Obligations.SelectorNamesTheArm : Prop :=
  (∀ (f : Framer) (b l : Nat),
    f.advanceWord.extractLsb' 4 4 = 0x8#4 ∧
    f.advanceWord.extractLsb' 2 2 = f.phase.code ∧
    f.advanceWord.getLsbD 1 = decide (f.bitIndex.val = 8) ∧
    f.advanceWord.getLsbD 0 = decide (f.byteIndex = f.length) ∧
    (f.phase = .start → decode ⟨f.advanceWord, b, l⟩ = .ok .advStart) ∧
    (f.phase = .data → f.bitIndex.val < 8 → decode ⟨f.advanceWord, b, l⟩ = .ok .advDataBit) ∧
    (f.phase = .data → f.bitIndex.val = 8 → decode ⟨f.advanceWord, b, l⟩ = .ok .advDataEnd) ∧
    (f.phase = .stop → f.byteIndex ≠ f.length → decode ⟨f.advanceWord, b, l⟩ = .ok .advStopNext) ∧
    (f.phase = .stop → f.byteIndex = f.length → decode ⟨f.advanceWord, b, l⟩ = .ok .advStopLast) ∧
    (f.phase = .done → decode ⟨f.advanceWord, b, l⟩ = .ok .advDone)) ∧
  (∀ sub : BitVec 4, (advanceRows.filter (fun r => r.matches (0x8#4 ++ sub))).length = 1)

/-! ### The Bit Framer (40_framer) -/

/-- 30_encoding R67: `(byte >> i) & 1` with `0 <= i <= 7` is 0 or 1, is bit `i` of the byte, and is sent as ZERO or ONE. -/
def Obligations.DataBitIsBitOfByte : Prop :=
  ∀ (b : Byte) (i : Nat), i ≤ 7 →
    dataBit b i = (b >>> i) &&& 1#8 ∧
    (dataBit b i = 0#8 ∨ dataBit b i = 1#8) ∧
    (dataBit b i = 1#8 ↔ b.getLsbD i = true) ∧
    bitSymbol (dataBit b i) = (if b.getLsbD i then .one else .zero)

/-- 40_framer R83, ADV.START: its pattern, and in phase START the symbol ZERO, `bit_index` 0, phase DATA, nothing else of
the framer, no fault and no memory read (the answer is the same for every memory), whatever the length; over a length of 0
the fault comes at the next call. -/
def Obligations.StartArmSendsStartBit : Prop :=
  (∀ (ev : Byte) (b l : Nat), ev &&& 0b11111100#8 = 0b10000000#8 → decode ⟨ev, b, l⟩ = .ok .advStart) ∧
  (∀ (p : Params) (m : Memory) (f : Framer), f.phase = .start →
    f.advance p m = .ok (.zero, { f with bitIndex := 0, phase := .data }) ∧
    (f.length = 0 →
      Framer.advance p m { f with bitIndex := 0, phase := .data } = .error (.bufferOutOfRange f.byteIndex)))

/-- 40_framer R84, ADV.DATA.BIT: its pattern, and in phase DATA below bit 8 the fault of an index not below the length,
the fault of an address that does not fit (the spec's own decision D17), or else bit `bit_index` of the byte at
`buf + byte_index` and `bit_index` one higher. -/
def Obligations.DataArmSendsOneBit : Prop :=
  (∀ (ev : Byte) (b l : Nat), ev &&& 0b11111110#8 = 0b10000100#8 → decode ⟨ev, b, l⟩ = .ok .advDataBit) ∧
  (∀ (p : Params) (m : Memory) (f : Framer) (h : f.bitIndex.val < 8), f.phase = .data →
    (f.length ≤ f.byteIndex → f.advance p m = .error (.bufferOutOfRange f.byteIndex)) ∧
    (f.byteIndex < f.length → 2 ^ p.addrW ≤ f.buf + f.byteIndex →
      f.advance p m = .error (.bufferOutOfRange (f.buf + f.byteIndex))) ∧
    (f.byteIndex < f.length → f.buf + f.byteIndex < 2 ^ p.addrW →
      f.advance p m =
        .ok (if ((m.read (f.buf + f.byteIndex)) >>> f.bitIndex.val) &&& 1#8 = 1#8 then .one else .zero,
          { f with bitIndex := ⟨f.bitIndex.val + 1, by omega⟩ })))

/-- 40_framer R85, ADV.DATA.END: its pattern, and in phase DATA at bit 8 the symbol ONE, `byte_index` one higher,
`bit_index` 0, phase STOP. That it reads no memory is the spec's own decision (D25). -/
def Obligations.DataEndArmSendsFirstFramingBit : Prop :=
  (∀ (ev : Byte) (b l : Nat), ev &&& 0b11111110#8 = 0b10000110#8 → decode ⟨ev, b, l⟩ = .ok .advDataEnd) ∧
  (∀ (p : Params) (m : Memory) (f : Framer), f.phase = .data → f.bitIndex.val = 8 →
    f.advance p m = .ok (.one, { f with byteIndex := f.byteIndex + 1, bitIndex := 0, phase := .stop }))

/-- 40_framer R86, ADV.STOP.NEXT: its pattern, and in phase STOP before the last byte the symbol ONE and phase START;
under the framer's bounds that means `byte_index < length`. -/
def Obligations.StopNextArmSendsSecondFramingBit : Prop :=
  (∀ (ev : Byte) (b l : Nat), ev &&& 0b11111101#8 = 0b10001000#8 → decode ⟨ev, b, l⟩ = .ok .advStopNext) ∧
  (∀ (p : Params) (m : Memory) (f : Framer), f.phase = .stop → f.byteIndex ≠ f.length →
    f.advance p m = .ok (.one, { f with phase := .start }) ∧ (f.byteIndex ≤ f.length → f.byteIndex < f.length))

/-- 40_framer R87, ADV.STOP.LAST: its pattern, and in phase STOP after the last byte the symbol END and phase DONE. -/
def Obligations.StopLastArmEndsTheStream : Prop :=
  (∀ (ev : Byte) (b l : Nat), ev &&& 0b11111101#8 = 0b10001001#8 → decode ⟨ev, b, l⟩ = .ok .advStopLast) ∧
  (∀ (p : Params) (m : Memory) (f : Framer), f.phase = .stop → f.byteIndex = f.length →
    f.advance p m = .ok (.endOfStream, { f with phase := .done }))

/-- 40_framer R88, ADV.DONE: its pattern, and in phase DONE the symbol END with nothing written, however often it is
called; within the block's own rules the handler never finds this phase. -/
def Obligations.DoneArmIsIdempotent : Prop :=
  (∀ (ev : Byte) (b l : Nat), ev &&& 0b11111100#8 = 0b10001100#8 → decode ⟨ev, b, l⟩ = .ok .advDone) ∧
  (∀ (p : Params) (m : Memory) (f : Framer), f.phase = .done →
    f.advance p m = .ok (.endOfStream, f) ∧
    ∀ k, f.calls p m k = .ok (List.replicate k .endOfStream, f)) ∧
  (∀ s : State, s.BlockInv → s.isrEnabled = true → s.F.phase ≠ .done)

/-- 40_framer R83 to R88: from INIT on, each arm performed by itself completes under its "Enabled when" with the framer
moved on and the symbol as the operation's result (the field that holds the result is the model's, log 11). -/
def Obligations.ArmsCompleteByThemselves : Prop :=
  ∀ s : State, s.mc ≠ .powerOn →
    (s.F.phase = .start →
      exec .advStart s =
        .next { s with F := { s.F with bitIndex := 0, phase := .data }, result := some (.symbol .zero) }) ∧
    (∀ h : s.F.bitIndex.val < 8, s.F.phase = .data → s.F.byteIndex < s.F.length →
      s.F.buf + s.F.byteIndex < 2 ^ s.params.addrW →
      exec .advDataBit s =
        .next { s with
          F := { s.F with bitIndex := ⟨s.F.bitIndex.val + 1, by omega⟩ }
          result := some (.symbol
            (if (s.mem.read (s.F.buf + s.F.byteIndex)).getLsbD s.F.bitIndex.val then .one else .zero)) }) ∧
    (s.F.phase = .data → s.F.bitIndex.val = 8 →
      exec .advDataEnd s =
        .next { s with
          F := { s.F with byteIndex := s.F.byteIndex + 1, bitIndex := 0, phase := .stop }
          result := some (.symbol .one) }) ∧
    (s.F.phase = .stop → s.F.byteIndex ≠ s.F.length →
      exec .advStopNext s =
        .next { s with F := { s.F with phase := .start }, result := some (.symbol .one) }) ∧
    (s.F.phase = .stop → s.F.byteIndex = s.F.length →
      exec .advStopLast s =
        .next { s with F := { s.F with phase := .done }, result := some (.symbol .endOfStream) }) ∧
    (s.F.phase = .done → exec .advDone s = .next { s with result := some (.symbol .endOfStream) })

/-- 40_framer R82 with 30_encoding R70: from INIT on, the operation that the framer's own word names does what ADVANCE
does, faults where it faults, and no other arm has a move. The field that holds the symbol of an arm performed by itself is
the model's (log 11), and so is the refusal as the outcome of "no move" (log 12). -/
def Obligations.NamedArmDoesWhatAdvanceDoes : Prop :=
  ∀ (s : State) (i : Instr) (b l : Nat), s.mc ≠ .powerOn → decode ⟨s.F.advanceWord, b, l⟩ = .ok i →
    (∀ (y : Symbol) (g : Framer), s.F.advance s.params s.mem = .ok (y, g) →
      exec i s = .next { s with F := g, result := some (.symbol y) }) ∧
    (∀ e : Fault, s.F.advance s.params s.mem = .error e → exec i s = .fault e) ∧
    (∀ j ∈ [Instr.advStart, .advDataBit, .advDataEnd, .advStopNext, .advStopLast, .advDone],
      j ≠ i → exec j s = .refused (.notEnabled j.mnemonic))

/-- 40_framer R81, MEASURE, from INIT on: the least `n` with a marker at `buffer + n`, inside `2^LEN_W` positions and the
address space, is the result; with no such `n` the operation faults `Unterminated(buffer)`. The marker 0x00 is the spec's own general
knowledge (G1, log 7), the field that holds the result the model's (log 11). -/
def Obligations.MeasureCountsToTheMarker : Prop :=
  ∀ (s : State) (buffer : Nat), s.mc ≠ .powerOn →
    (∀ n, n < 2 ^ s.params.lenW → buffer + n < 2 ^ s.params.addrW → s.mem.read (buffer + n) = 0x00#8 →
      (∀ j, j < n → s.mem.read (buffer + j) ≠ 0x00#8) →
      exec (.measure buffer) s = .next { s with result := some (.count n) }) ∧
    ((∀ n, n < 2 ^ s.params.lenW → buffer + n < 2 ^ s.params.addrW → s.mem.read (buffer + n) ≠ 0x00#8) →
      exec (.measure buffer) s = .fault (.unterminated buffer))

/-- 40_framer R80, FRESET in its two forms: buffer, length, indices 0 and phase START, from any state from INIT on.
`bit_index` 0 is the spec's own choice (D7); the marker is G1 (log 7). -/
def Obligations.FresetSetsTheFramer : Prop :=
  ∀ (s : State) (buffer : Nat), s.mc ≠ .powerOn →
    (∀ n, exec (.fresetLen buffer n) s =
      .next { s with F := { buf := buffer, length := n, byteIndex := 0, bitIndex := 0, phase := .start } }) ∧
    (∀ n, n < 2 ^ s.params.lenW → buffer + n < 2 ^ s.params.addrW → s.mem.read (buffer + n) = 0x00#8 →
      (∀ j, j < n → s.mem.read (buffer + j) ≠ 0x00#8) →
      exec (.fresetMeasure buffer) s =
        .next { s with F := { buf := buffer, length := n, byteIndex := 0, bitIndex := 0, phase := .start } }) ∧
    ((∀ n, n < 2 ^ s.params.lenW → buffer + n < 2 ^ s.params.addrW → s.mem.read (buffer + n) ≠ 0x00#8) →
      exec (.fresetMeasure buffer) s = .fault (.unterminated buffer))

/-- 40_framer R90: ADVANCE takes only the edges of the phase graph, each with its symbol, and keeps the buffer and the
length. -/
def Obligations.PhaseGraphHasOnlyItsEdges : Prop :=
  ∀ (p : Params) (m : Memory) (f g : Framer) (y : Symbol), f.advance p m = .ok (y, g) →
    ((f.phase = .start ∧ g.phase = .data ∧ y = .zero) ∨
     (f.phase = .data ∧ g.phase = .data ∧ y ≠ .endOfStream ∧ g.bitIndex.val = f.bitIndex.val + 1) ∨
     (f.phase = .data ∧ g.phase = .stop ∧ y = .one ∧ f.bitIndex.val = 8) ∨
     (f.phase = .stop ∧ g.phase = .start ∧ y = .one) ∨
     (f.phase = .stop ∧ g.phase = .done ∧ y = .endOfStream) ∨
     (f.phase = .done ∧ g.phase = .done ∧ y = .endOfStream)) ∧
    g.buf = f.buf ∧ g.length = f.length

/-- 40_framer R91: over an engaged framer every arm but ADV.DONE raises `pos` by one, the call made at `pos = k` returns
the symbol of 30_encoding R66 for `k`, `pos` never passes `11n`, and at `11n` the framer is DONE; after FRESET `pos` is 0.
The framer stays engaged. -/
def Obligations.PositionCountsTheCalls : Prop :=
  (∀ buffer n, (Framer.over buffer n).pos = 0) ∧
  (∀ (p : Params) (m : Memory) (f g : Framer) (y : Symbol), f.Engaged → f.advance p m = .ok (y, g) →
    g.Engaged ∧
    (f.phase ≠ .done → g.pos = f.pos + 1) ∧
    (f.phase = .done → g.pos = f.pos) ∧
    y = closedSymbol (fun j => m.read (f.buf + j)) f.length f.pos ∧
    g.pos ≤ 11 * f.length ∧
    (g.pos = 11 * f.length ↔ g.phase = .done))

/-- 30_encoding R66, the closed form: call `k` after a FRESET over `n >= 1` bytes that lie in the address space returns
the symbol the closed form gives, for every number of calls; the first END is call `11n - 1`. -/
def Obligations.FramerMatchesTheClosedForm : Prop :=
  ∀ (p : Params) (m : Memory) (buffer n : Nat), 1 ≤ n → buffer + n ≤ 2 ^ p.addrW →
    (∀ k, ∃ g, (Framer.over buffer n).calls p m k =
      .ok ((List.range k).map (closedSymbol (fun j => m.read (buffer + j)) n), g)) ∧
    closedSymbol (fun j => m.read (buffer + j)) n (11 * n - 1) = .endOfStream ∧
    (∀ k, k < 11 * n - 1 → closedSymbol (fun j => m.read (buffer + j)) n k ≠ .endOfStream)

/-- 40_framer R92, the source's own statement of correctness: over every non-empty buffer ADVANCE called again and again
gives, per byte, ZERO, the eight bits least significant first, the framing ONEs (two before a further byte, one after the
last), and then END for ever. -/
def Obligations.FramerEmitsTheWireStream : Prop :=
  ∀ (p : Params) (m : Memory) (buffer n j : Nat), 1 ≤ n → buffer + n ≤ 2 ^ p.addrW →
    (Framer.over buffer n).calls p m (11 * n + j) =
      .ok (wireSymbols (bufferBytes m buffer n) ++ List.replicate j .endOfStream,
        { buf := buffer, length := n, byteIndex := n, bitIndex := 0, phase := .done })

/-- 40_framer R93: on a framer over no bytes the first call returns ZERO and the second faults. This is what the rules
give; the source rules the use out. -/
def Obligations.ZeroLengthFramerFaultsAtTheSecondCall : Prop :=
  ∀ (p : Params) (m : Memory) (buffer : Nat),
    (∃ g, (Framer.over buffer 0).calls p m 1 = .ok ([.zero], g)) ∧
    (∀ k, (Framer.over buffer 0).calls p m (k + 2) = .error (.bufferOutOfRange 0))

/-! ### The Transmission Controller (41_controller) -/

/-- 41_controller R100, INIT: at power-on every element gets the value of the "after INIT" column of 10_state R32, `F.buf`
some address that nothing fixes (log 5); later it faults `DoubleInit`. Several of the values are the spec's own decisions
(D7 to D10). -/
def Obligations.InitConfiguresTheBlock : Prop :=
  ∀ s : State,
    (s.mc = .powerOn →
      ∃ buffer, buffer < 2 ^ s.params.addrW ∧
        exec .init s =
          .next { s with
            PIN := { dir := .output, level := .high }
            T := { run := false, cnt := 0, period := s.params.period, irqEn := true, irqPend := false }
            C := { busy := false }
            F := { buf := buffer, length := 0, byteIndex := 0, bitIndex := 0, phase := .start }
            mc := .ready
            draws := s.draws + 1 }) ∧
    (s.mc ≠ .powerOn → exec .init s = .fault .doubleInit)

/-- 41_controller R101, WRITE with an explicit length of at least 1 and WRITE with a measured one, in Ready: the framer
over the buffer, `busy` true, counter 0 and running, Waiting; nothing of the pin. That it is one step is the spec's
decision (D27); the marker is G1 (log 7). -/
def Obligations.WriteStartsATransmission : Prop :=
  ∀ (s : State) (buffer n : Nat), s.mc = .ready → 1 ≤ n →
    exec (.writeLen buffer n) s =
      .next { s with
        F := { buf := buffer, length := n, byteIndex := 0, bitIndex := 0, phase := .start }
        C := { busy := true }
        T := { s.T with cnt := 0, run := true }
        mc := .waiting } ∧
    (n < 2 ^ s.params.lenW → buffer + n < 2 ^ s.params.addrW → s.mem.read (buffer + n) = 0x00#8 →
      (∀ j, j < n → s.mem.read (buffer + j) ≠ 0x00#8) →
      exec (.writeMeasure buffer) s =
        .next { s with
          F := { buf := buffer, length := n, byteIndex := 0, bitIndex := 0, phase := .start }
          C := { busy := true }
          T := { s.T with cnt := 0, run := true }
          mc := .waiting })

/-- 41_controller R107: for an empty buffer, given so or measured so, `write` returns at once; its only effect is
FRESET's. -/
def Obligations.EmptyWriteIsASilentNoOp : Prop :=
  ∀ (s : State) (buffer : Nat), s.mc = .ready →
    exec (.writeLen buffer 0) s =
      .next { s with F := { buf := buffer, length := 0, byteIndex := 0, bitIndex := 0, phase := .start } } ∧
    (measureBuffer s.params s.mem buffer = .ok 0 →
      exec (.writeMeasure buffer) s =
        .next { s with F := { buf := buffer, length := 0, byteIndex := 0, bitIndex := 0, phase := .start } })

/-- 60_exceptions R142, R143, R144, R146 (the spec's own decisions D13, D24, D26): the uses the source forbids fault by
name. -/
def Obligations.MisuseFaultsByName : Prop :=
  ∀ (s : State) (buffer n : Nat),
    (s.mc = .powerOn → exec (.writeLen buffer n) s = .fault .useBeforeInit ∧
      exec (.writeMeasure buffer) s = .fault .useBeforeInit) ∧
    (s.mc = .waiting → exec (.writeLen buffer n) s = .fault .reentrantWrite ∧
      exec (.writeMeasure buffer) s = .fault .reentrantWrite) ∧
    (s.mc = .ready ∨ s.mc = .waiting → exec .init s = .fault .doubleInit) ∧
    (s.mc = .ready →
      (∀ k, k < 2 ^ s.params.lenW → buffer + k < 2 ^ s.params.addrW → s.mem.read (buffer + k) ≠ 0x00#8) →
      exec (.writeMeasure buffer) s = .fault (.unterminated buffer))

/-- 41_controller R102, POLL in Waiting: `busy` false returns from `write`, `busy` true changes nothing. -/
def Obligations.PollReturnsWhenNotBusy : Prop :=
  ∀ s : State, s.mc = .waiting →
    (s.C.busy = false → exec .poll s = .next { s with mc := .ready }) ∧
    (s.C.busy = true → exec .poll s = .next s)

/-- 41_controller R103, R104, START and STOP by themselves, from any state from INIT on. -/
def Obligations.StartAndStopSetTimerAndBusy : Prop :=
  ∀ s : State, s.mc ≠ .powerOn →
    exec .start s = .next { s with T := { s.T with cnt := 0, run := true } } ∧
    exec .stop s = .next { s with T := { s.T with run := false, cnt := 0 }, C := { busy := false } }

/-- 41_controller R108 with 10_state R18: from INIT on a step raises `busy` only by a WRITE of non-zero length, which
starts the timer and waits, and clears it only in the handler, on END. Nothing is offered by the host's question
(log 11). -/
def Obligations.BusyRisesInWriteAndFallsOnEnd : Prop :=
  ∀ s t : State, s.mc ≠ .powerOn → s.offered = none → step s = .next t →
    (s.C.busy = false → t.C.busy = true →
      s.mc = .ready ∧ t.mc = .waiting ∧ t.T.run = true ∧ t.T.cnt = 0 ∧ 1 ≤ t.F.length ∧ t.F.phase = .start) ∧
    (s.C.busy = true → t.C.busy = false →
      s.isrEnabled = true ∧ t.SYM = s.SYM ++ [.endOfStream] ∧ t.W = s.W ∧ t.T.run = false ∧ t.mc = s.mc)

/-- 41_controller R109: inside `write` no step aborts the transmission: the buffer, the length and `mc` stay, but for the
POLL that finds `busy` false; neither INIT nor WRITE completes. Nothing is offered by the host's question (log 11). -/
def Obligations.WriteCannotBeAborted : Prop :=
  ∀ s t : State, s.mc = .waiting → s.offered = none → step s = .next t →
    t.F.buf = s.F.buf ∧ t.F.length = s.F.length ∧ t.mem = s.mem ∧
    (t.mc = .waiting ∨ (t.mc = .ready ∧ s.C.busy = false ∧ t.C.busy = false)) ∧
    (∀ i, isHostCall i = true → ∀ u, exec i s ≠ .next u)

/-- 41_controller R111: two Ready states of the invariant that agree on memory and parameters leave a WRITE of one buffer
and length in the same framer, flag, timer, pin and `mc`: nothing of an earlier transmission is left. -/
def Obligations.NothingLeaksIntoTheNextWrite : Prop :=
  ∀ (s s' t : State) (buffer : Nat) (i : Instr),
    s.BlockInv → s'.BlockInv → s.mc = .ready → s'.mc = .ready → s.mem = s'.mem → s.params = s'.params →
    ((∃ n, 1 ≤ n ∧ i = .writeLen buffer n) ∨ (i = .writeMeasure buffer ∧ s.mem.read buffer ≠ 0x00#8)) →
    exec i s = .next t →
    ∃ t', exec i s' = .next t' ∧ t'.F = t.F ∧ t'.C = t.C ∧ t'.T = t.T ∧ t'.PIN = t.PIN ∧ t'.mc = t.mc ∧
      t.PIN.level = .high ∧ t.T.irqPend = false

/-! ### The timer and the handler (42_timer_handler) -/

/-- 42_timer_handler R120, TCYCLE, where it is enabled: stopped, nothing changes; at the end of a period the counter
returns to 0 and the request is set, or the overrun faults; otherwise the counter is one higher. The mechanism is the
spec's own reading (D3, D29). -/
def Obligations.TimerCountsAndRequests : Prop :=
  ∀ s : State, s.mc ≠ .powerOn → ¬ (s.T.irqPend = true ∧ s.T.irqEn = true ∧ s.gie = true) →
    (s.T.run = false → exec .tcycle s = .next s) ∧
    (s.T.run = true → s.T.cnt + 1 = s.T.period → s.T.irqPend = false →
      exec .tcycle s = .next { s with T := { s.T with cnt := 0, irqPend := true } }) ∧
    (s.T.run = true → s.T.cnt + 1 = s.T.period → s.T.irqPend = true → exec .tcycle s = .fault .timerOverrun) ∧
    (s.T.run = true → s.T.cnt + 1 ≠ s.T.period →
      exec .tcycle s = .next { s with T := { s.T with cnt := s.T.cnt + 1 } })

/-- 42_timer_handler R123, R127: after START the `P`-th cycle and no earlier one raises the request, and the counter is
back at 0; a request left unserved overruns at the end of the second period (70_reset R179). -/
def Obligations.RequestComesAfterOnePeriod : Prop :=
  ∀ t : Timer, t.run = true → t.cnt = 0 → t.irqPend = false → 1 ≤ t.period →
    (∀ k, k < t.period → Timer.cycles k t = .ok { t with cnt := k }) ∧
    Timer.cycles t.period t = .ok { t with irqPend := true } ∧
    (∀ j, Timer.cycles (2 * t.period + j) t = .error .timerOverrun)

/-- 42_timer_handler R122, ISR, where its request is to be served: pending cleared, the framer advanced, the symbol
logged; ZERO drives low, ONE drives high, END stops the timer, clears `busy` and leaves the pin; ADVANCE's fault faults. -/
def Obligations.HandlerDrivesTheSymbol : Prop :=
  ∀ s : State, s.mc ≠ .powerOn → s.T.irqPend = true → s.T.irqEn = true → s.gie = true →
    (∀ g, s.F.advance s.params s.mem = .ok (.zero, g) →
      exec .isr s =
        .next { s with
          T := { s.T with irqPend := false }
          F := g
          SYM := s.SYM ++ [.zero]
          PIN := { s.PIN with level := .low }
          W := s.W ++ [.low] }) ∧
    (∀ g, s.F.advance s.params s.mem = .ok (.one, g) →
      exec .isr s =
        .next { s with
          T := { s.T with irqPend := false }
          F := g
          SYM := s.SYM ++ [.one]
          PIN := { s.PIN with level := .high }
          W := s.W ++ [.high] }) ∧
    (∀ g, s.F.advance s.params s.mem = .ok (.endOfStream, g) →
      exec .isr s =
        .next { s with
          T := { s.T with irqPend := false, run := false, cnt := 0 }
          F := g
          SYM := s.SYM ++ [.endOfStream]
          C := { busy := false } }) ∧
    (∀ e, s.F.advance s.params s.mem = .error e → exec .isr s = .fault e)

/-- 42_timer_handler R122 with 40_framer R91: over an engaged framer whose buffer lies in the address space an enabled ISR
always completes, its symbol is the one 30_encoding R66 gives for the framer's position, the framer moves on by one and
the request is cleared. -/
def Obligations.HandlerCompletesOverAnEngagedFramer : Prop :=
  ∀ s : State, s.mc ≠ .powerOn → s.T.irqPend = true → s.T.irqEn = true → s.gie = true →
    s.F.Engaged → s.F.buf + s.F.length ≤ 2 ^ s.params.addrW →
    ∃ t, exec .isr s = .next t ∧
      t.SYM = s.SYM ++ [closedSymbol (fun j => s.mem.read (s.F.buf + j)) s.F.length s.F.pos] ∧
      t.F.Engaged ∧ (s.F.phase ≠ .done → t.F.pos = s.F.pos + 1) ∧ t.T.irqPend = false ∧ t.mc = s.mc

/-- 30_encoding R63, R64: what a symbol does to the pin when the handler obtains it, written as bits: ZERO drives 0, ONE
drives 1, END invokes STOP and leaves the level, which under the invariant of 10_state R30 is the idle-high 1. A start bit
is ZERO, a framing bit ONE, and a data bit drives its own value, without inversion. -/
def Obligations.SymbolsDriveThePin : Prop :=
  ∀ s t : State, s.BlockInv → exec .isr s = .next t →
    ∃ y, t.SYM = s.SYM ++ [y] ∧
      (y = .zero → t.PIN.level.bit = 0#1) ∧
      (y = .one → t.PIN.level.bit = 1#1) ∧
      (y = .endOfStream →
        t.PIN = s.PIN ∧ t.PIN.level.bit = 1#1 ∧ t.T.run = false ∧ t.T.cnt = 0 ∧ t.C.busy = false) ∧
      (s.F.phase = .start → y = .zero) ∧
      (s.F.phase = .data → s.F.bitIndex.val = 8 → y = .one) ∧
      (s.F.phase = .stop → s.F.byteIndex ≠ s.F.length → y = .one) ∧
      (s.F.phase = .data → s.F.bitIndex.val < 8 →
        t.PIN.level.bit.toNat =
          (((s.mem.read (s.F.buf + s.F.byteIndex)) >>> s.F.bitIndex.val) &&& 1#8).toNat)

/-- 42_timer_handler R121 (the spec's rendering, D23): while the request is to be served the next step of the whole
machine is the handler's, whatever is scheduled or offered, and no POLL, INIT, WRITE or TCYCLE is taken first. -/
def Obligations.HandlerRunsBeforeEverything : Prop :=
  ∀ s : State, s.isrEnabled = true →
    step s = exec .isr s ∧ (∀ i u, s.fetch = .run i u → i = .isr ∧ u = s) ∧ (∀ u, s.fetch ≠ .moved u)

/-- 10_state R30 item (e) with 60_exceptions R147: with `GIE` true, from INIT on, neither the main context nor the timer
steps while a request is pending, and no step overruns. -/
def Obligations.NoOverrunWhileInterruptsAreEnabled : Prop :=
  ∀ s : State, s.BlockInv → s.mc ≠ .powerOn → s.gie = true →
    (∀ i u, s.fetch = .run i u → i ≠ .isr → s.T.irqPend = false) ∧
    step s ≠ .fault .timerOverrun

/-- 70_reset R179: with `GIE` false a `write` in progress does not return: no step clears `busy`, leaves Waiting or drives
the pin, and the only fault of the timer is the overrun at the end of a period with the request pending. Nothing is
offered by the host's question (log 11). -/
def Obligations.WriteHangsWhileInterruptsAreMasked : Prop :=
  ∀ s : State, s.mc = .waiting → s.C.busy = true → s.gie = false → s.offered = none →
    (∀ t, step s = .next t →
      t.C.busy = true ∧ t.mc = .waiting ∧ t.F = s.F ∧ t.PIN = s.PIN ∧ t.W = s.W ∧ t.SYM = s.SYM) ∧
    (step s = .fault .timerOverrun → s.T.irqPend = true ∧ s.T.run = true ∧ s.T.cnt + 1 = s.T.period)

/-- 42_timer_handler R129: while the timer is stopped, from INIT on, no request is pending, the handler has no move and
TCYCLE changes nothing; and the tick that obtains END leaves the timer so. The refusal as the outcome of "no move" is the
model's (log 12). -/
def Obligations.NoTickWhileStopped : Prop :=
  (∀ s : State, s.BlockInv → s.mc ≠ .powerOn → s.T.run = false →
    s.T.irqPend = false ∧ exec .isr s = .refused (.notEnabled "ISR") ∧ exec .tcycle s = .next s) ∧
  (∀ s t : State, exec .isr s = .next t → t.SYM = s.SYM ++ [.endOfStream] →
    t.T.run = false ∧ t.T.irqPend = false ∧ t.isrEnabled = false)

/-! ### What each operation leaves alone -/

/-- 41_controller R100 to R102: INIT, WRITE and POLL change nothing but the elements their rules write, and no byte of
memory; POLL writes `mc` only, WRITE the framer, `busy`, `T.run`, `T.cnt` and `mc`, INIT those, the pin and the timer's
other fields. -/
def Obligations.MainContextFrame : Prop :=
  ∀ (s t : State) (i : Instr), exec i s = .next t →
    (i = .init ∨ i = .poll ∨ (∃ b n, i = .writeLen b n) ∨ (∃ b, i = .writeMeasure b)) →
    (∀ a, t.mem.read a = s.mem.read a) ∧ t.mem = s.mem ∧ t.SYM = s.SYM ∧ t.W = s.W ∧ t.gie = s.gie ∧
    t.params = s.params ∧ t.program = s.program ∧ t.schedule = s.schedule ∧ t.result = s.result ∧
    t.offered = s.offered ∧
    (i ≠ .init → t.PIN = s.PIN ∧ t.T.period = s.T.period ∧ t.T.irqEn = s.T.irqEn ∧ t.T.irqPend = s.T.irqPend ∧
      t.draws = s.draws) ∧
    (i = .poll → t.F = s.F ∧ t.C = s.C ∧ t.T = s.T)

/-- 41_controller R103, R104, 42_timer_handler R120, R124: START, STOP, TCYCLE and ISR change nothing but the elements
their rules write, and no byte of memory; TCYCLE writes `T.cnt` and `T.irq_pend`, START `T.run` and `T.cnt`, STOP those and
`busy`; the handler never writes `F.buf`, `F.length`, `T.period`, `T.irq_en`, `PIN.dir` or `mc`. -/
def Obligations.TimerAndHandlerFrame : Prop :=
  ∀ (s t : State) (i : Instr), exec i s = .next t → (i = .start ∨ i = .stop ∨ i = .tcycle ∨ i = .isr) →
    (∀ a, t.mem.read a = s.mem.read a) ∧ t.mem = s.mem ∧ t.gie = s.gie ∧ t.params = s.params ∧ t.mc = s.mc ∧
    t.program = s.program ∧ t.schedule = s.schedule ∧ t.draws = s.draws ∧ t.result = s.result ∧
    t.offered = s.offered ∧ t.T.period = s.T.period ∧ t.T.irqEn = s.T.irqEn ∧ t.PIN.dir = s.PIN.dir ∧
    t.F.buf = s.F.buf ∧ t.F.length = s.F.length ∧
    (i ≠ .isr → t.F = s.F ∧ t.PIN = s.PIN ∧ t.SYM = s.SYM ∧ t.W = s.W) ∧
    (i = .tcycle → t.T.run = s.T.run ∧ t.C = s.C) ∧
    (i = .start → t.T.irqPend = s.T.irqPend ∧ t.C = s.C) ∧
    (i = .stop → t.T.irqPend = s.T.irqPend)

/-- 40_framer R80 to R88: FRESET, MEASURE and the arms of ADVANCE touch nothing of the controller, the timer, the pin or
memory; MEASURE writes only its result, FRESET only the framer, an arm only `byte_index`, `bit_index`, `phase` and its
result (the field of results is the model's, log 11). -/
def Obligations.FramerFrame : Prop :=
  ∀ (s t : State) (i : Instr), exec i s = .next t →
    (i = .advStart ∨ i = .advDataBit ∨ i = .advDataEnd ∨ i = .advStopNext ∨ i = .advStopLast ∨ i = .advDone ∨
      (∃ b n, i = .fresetLen b n) ∨ (∃ b, i = .fresetMeasure b) ∨ (∃ b, i = .measure b)) →
    (∀ a, t.mem.read a = s.mem.read a) ∧ t.mem = s.mem ∧ t.C = s.C ∧ t.T = s.T ∧ t.PIN = s.PIN ∧ t.mc = s.mc ∧
    t.SYM = s.SYM ∧ t.W = s.W ∧ t.gie = s.gie ∧ t.params = s.params ∧ t.program = s.program ∧
    t.schedule = s.schedule ∧ t.draws = s.draws ∧ t.offered = s.offered ∧
    ((∃ b, i = .measure b) → t.F = s.F) ∧
    ((∃ b n, i = .fresetLen b n) ∨ (∃ b, i = .fresetMeasure b) → t.result = s.result) ∧
    (i = .advStart ∨ i = .advDataBit ∨ i = .advDataEnd ∨ i = .advStopNext ∨ i = .advStopLast ∨ i = .advDone →
      t.F.buf = s.F.buf ∧ t.F.length = s.F.length)

/-- 20_memory R54: the block never writes memory: no operation changes a byte of it. -/
def Obligations.NoOperationWritesMemory : Prop :=
  ∀ (i : Instr) (s t : State), exec i s = .next t → t.mem = s.mem ∧ ∀ a, t.mem.read a = s.mem.read a

/-- 10_state R22, R24: INIT enables the timer's interrupt and makes the pin an output, and no other operation writes
either; with R21, no operation but INIT writes the period, which INIT sets to `P`. -/
def Obligations.OnlyInitConfigures : Prop :=
  ∀ (i : Instr) (s t : State), exec i s = .next t →
    (i = .init → t.T.irqEn = true ∧ t.PIN.dir = .output ∧ t.T.period = s.params.period) ∧
    (i ≠ .init → t.T.irqEn = s.T.irqEn ∧ t.PIN.dir = s.PIN.dir ∧ t.T.period = s.T.period)

/-- 10_state R25: the pin's level, low written 0 and high 1, is set high by INIT, driven low by ZERO and high by ONE in the
handler, written by nothing on END and by no other operation; the wire sees it whenever the pin is an output. -/
def Obligations.OnlyInitAndHandlerDriveThePin : Prop :=
  ∀ (i : Instr) (s t : State), exec i s = .next t →
    (i = .init → t.PIN.level = .high) ∧
    (i = .isr → ∃ y, t.SYM = s.SYM ++ [y] ∧
      (y = .zero → t.PIN.level = .low) ∧ (y = .one → t.PIN.level = .high) ∧
      (y = .endOfStream → t.PIN.level = s.PIN.level)) ∧
    (i ≠ .init → i ≠ .isr → t.PIN.level = s.PIN.level) ∧
    (t.PIN.dir = .output → t.PIN.wire = some t.PIN.level) ∧ Level.low.bit = 0#1 ∧ Level.high.bit = 1#1

/-- 10_state R13: `byte_index` is 0 after FRESET, wherever FRESET happens, one higher after the DATA-end arm, by itself or
in the handler, and changed by nothing else. -/
def Obligations.OnlyDataEndMovesTheByteIndex : Prop :=
  ∀ (i : Instr) (s t : State), exec i s = .next t →
    ((i = .init ∨ (∃ b n, i = .writeLen b n) ∨ (∃ b, i = .writeMeasure b) ∨ (∃ b n, i = .fresetLen b n) ∨
        (∃ b, i = .fresetMeasure b)) → t.F.byteIndex = 0) ∧
    ((i = .advDataEnd ∨ (i = .isr ∧ s.F.phase = .data ∧ s.F.bitIndex.val = 8)) →
      t.F.byteIndex = s.F.byteIndex + 1) ∧
    ((i = .poll ∨ i = .start ∨ i = .stop ∨ i = .tcycle ∨ i = .advStart ∨ i = .advDataBit ∨ i = .advStopNext ∨
        i = .advStopLast ∨ i = .advDone ∨ (∃ b, i = .measure b) ∨
        (i = .isr ∧ ¬ (s.F.phase = .data ∧ s.F.bitIndex.val = 8))) → t.F.byteIndex = s.F.byteIndex)

/-- 10_state R28, R29: the ghost logs are appended to by ISR alone, one symbol each time and a level for ZERO and ONE, and
no operation reads them: under any other history every operation does the same and appends the same. -/
def Obligations.GhostLogsAreNeverRead : Prop :=
  ∀ (i : Instr) (s : State) (y : List Symbol) (w : List Level),
    (∀ t, exec i s = .next t →
      ∃ dy dw, t.SYM = s.SYM ++ dy ∧ t.W = s.W ++ dw ∧ dw = dy.filterMap Symbol.level? ∧
        (i = .isr → dy.length = 1) ∧ (i ≠ .isr → dy = []) ∧
        exec i (s.withHistory y w) = .next (t.withHistory (y ++ dy) (w ++ dw))) ∧
    (∀ f, exec i s = .fault f → exec i (s.withHistory y w) = .fault f) ∧
    (∀ r, exec i s = .refused r → exec i (s.withHistory y w) = .refused r)

/-- 60_exceptions R141: each fault has the code of its table, is raised by the operations the table names, under the
condition it names, and by no other. The faults and their codes are the spec's own (D13); the marker 0x00 that
`Unterminated` did not find is the spec's own general knowledge (G1, log 7). -/
def Obligations.FaultsHaveOnlyTheirCauses : Prop :=
  ∀ (i : Instr) (s : State) (f : Fault), exec i s = .fault f →
    (f = .useBeforeInit ∧ f.code = 1 ∧ s.mc = .powerOn ∧
      ((∃ b n, i = .writeLen b n) ∨ (∃ b, i = .writeMeasure b))) ∨
    (f = .doubleInit ∧ f.code = 2 ∧ s.mc ≠ .powerOn ∧ i = .init) ∨
    (f = .reentrantWrite ∧ f.code = 3 ∧ s.mc = .waiting ∧
      ((∃ b n, i = .writeLen b n) ∨ (∃ b, i = .writeMeasure b))) ∨
    (∃ x, f = .bufferOutOfRange x ∧ f.code = 4 ∧ (i = .advDataBit ∨ i = .isr) ∧ s.F.phase = .data ∧
      s.F.bitIndex.val < 8 ∧
      ((x = s.F.byteIndex ∧ s.F.length ≤ s.F.byteIndex) ∨
       (x = s.F.buf + s.F.byteIndex ∧ 2 ^ s.params.addrW ≤ x))) ∨
    (∃ b, f = .unterminated b ∧ f.code = 5 ∧ (i = .writeMeasure b ∨ i = .fresetMeasure b ∨ i = .measure b) ∧
      ∀ n, n < 2 ^ s.params.lenW → b + n < 2 ^ s.params.addrW → s.mem.read (b + n) ≠ 0x00#8) ∨
    (f = .timerOverrun ∧ f.code = 6 ∧ i = .tcycle ∧ s.T.run = true ∧ s.T.cnt + 1 = s.T.period ∧ s.T.irqPend = true)

/-- The "Enabled when" of 41_controller R102, 42_timer_handler R120, R122 and 40_framer R83 to R88, with 70_reset R170: an
operation is refused by name exactly where its rule gives it no move or, for one that only runs inside another one, before
INIT; every other operation is never refused. Refusing is the model's outcome for "no move" (log 12). -/
def Obligations.OnlyDisabledOperationsAreRefused : Prop :=
  ∀ (i : Instr) (s : State) (r : Refusal),
    exec i s = .refused r ↔
      r = .notEnabled i.mnemonic ∧
      ((i = .poll ∧ s.mc ≠ .waiting) ∨
       (i = .tcycle ∧ (s.mc = .powerOn ∨ s.isrEnabled = true)) ∨
       (i = .isr ∧ s.isrEnabled = false) ∨
       (i = .advStart ∧ s.F.phase ≠ .start) ∨
       (i = .advDataBit ∧ ¬ (s.F.phase = .data ∧ s.F.bitIndex.val < 8)) ∨
       (i = .advDataEnd ∧ ¬ (s.F.phase = .data ∧ s.F.bitIndex.val = 8)) ∨
       (i = .advStopNext ∧ ¬ (s.F.phase = .stop ∧ s.F.byteIndex ≠ s.F.length)) ∨
       (i = .advStopLast ∧ ¬ (s.F.phase = .stop ∧ s.F.byteIndex = s.F.length)) ∨
       (i = .advDone ∧ s.F.phase ≠ .done) ∨
       (isInternal i = true ∧ s.mc = .powerOn))

/-! ### The step -/

/-- With no request to serve, the step performs the event that the host's question offers, whole, and takes it off
(log 11); with nothing offered it performs what the next move names, and takes that move off: inside `write` the main
context's POLL, outside it the program's next call; the timer's cycle. The order of moves is the model's schedule (log 8),
the program its list of calls (log 9). -/
def Obligations.StepRunsTheDecodedOperation : Prop :=
  ∀ s : State, s.isrEnabled = false →
    (∀ e i, s.offered = some e → decode e = .ok i → i.wf s.params = true →
      step s = exec i { s with offered := none }) ∧
    (∀ rest, s.offered = none → s.schedule = .timer :: rest → step s = exec .tcycle { s with schedule := rest }) ∧
    (∀ rest, s.offered = none → s.schedule = .main :: rest → s.mc = .waiting →
      step s = exec .poll { s with schedule := rest }) ∧
    (∀ rest e i calls, s.offered = none → s.schedule = .main :: rest → s.mc ≠ .waiting → s.program = e :: calls →
      decode e = .ok i → i.wf s.params = true → isHostCall i = true →
      step s = exec i { s with schedule := rest, program := calls }) ∧
    (s.offered = none → s.schedule = [] → s.mc = .ready → s.program = [] → step s = exec .tcycle s)

/-- 00_scope R6, 60_exceptions R158: with nothing offered by the host's question (log 11) whatever a step runs is an
operation of one of the three agents, with operands of their widths, whatever is scheduled (log 8), and nothing gets
offered. -/
def Obligations.AgentsRunOnlyTheirOperations : Prop :=
  ∀ s : State, s.offered = none →
    (∀ i u, s.fetch = .run i u → isInternal i = false ∧ i.wf s.params = true) ∧
    (∀ t, step s = .next t → t.offered = none)

/-- 70_reset R190 with 20_memory R42: the host may change a byte of its memory while no `write` is in progress: it then
reads as stored, every other byte as before, and nothing else changes but the move taken off; during a `write` there is
no such move (the refusal is the model's, log 15). Nothing is offered by the host's question (log 11). -/
def Obligations.HostStoreChangesOneByteOutsideWrite : Prop :=
  ∀ (s : State) (a : Nat) (v : Byte) (rest : List Move),
    s.MemInv → s.isrEnabled = false → s.offered = none → s.schedule = .hostStore a v :: rest →
    (s.mc = .waiting → step s = .refused .storeDuringWrite) ∧
    (s.mc ≠ .waiting → a < 2 ^ s.params.addrW →
      ∃ m : Memory, step s = .next { s with schedule := rest, mem := m } ∧ m.wf = true ∧ m.read a = v ∧
        ∀ x, x ≠ a → m.read x = s.mem.read x)

/-- 70_reset R170, 10_state R32 (the spec's own power-on state, D6): at reset `mc` is PowerOn and the logs are empty. In
every state with `mc` PowerOn, whatever the rest of it holds, only INIT is enabled: INIT completes, a WRITE faults, every
other operation is refused by name (log 12), and a step that completes is INIT or leaves the block alone. With no call to
make (log 18) and nothing scheduled (log 8) or offered (log 11), nothing has a move. -/
def Obligations.PowerOnAllowsOnlyInit : Prop :=
  (State.reset.mc = .powerOn ∧ State.reset.SYM = [] ∧ State.reset.W = []) ∧
  (∀ s : State, s.mc = .powerOn →
    (∃ t, exec .init s = .next t ∧ t.mc = .ready) ∧
    (∀ b n, exec (.writeLen b n) s = .fault .useBeforeInit ∧ exec (.writeMeasure b) s = .fault .useBeforeInit) ∧
    (∀ i, i ≠ .init → (∀ b n, i ≠ .writeLen b n) → (∀ b, i ≠ .writeMeasure b) →
      exec i s = .refused (.notEnabled i.mnemonic)) ∧
    (∀ t, step s = .next t → s.SameBlock t ∨ ∃ u, s.Rescheduled u ∧ exec .init u = .next t) ∧
    (s.offered = none → s.schedule = [] → s.program = [] → step s = .refused .noCall))

/-! ### Invariants and whole transmissions -/

/-- The invariants hold at reset, and INIT establishes 10_state R30 from any state at power-on with legal parameters. The
reset values that R32 leaves unspecified are the model's (log 4); no clause rests on them. -/
def Obligations.ResetAndInitMeetTheInvariants : Prop :=
  State.reset.BlockInv ∧ State.reset.MemInv ∧ State.reset.StreamInv ∧
  (∀ s t : State, s.params.legal = true → exec .init s = .next t → t.mc = .ready ∧ t.R30 ∧ t.Supporting)

/-- 10_state R30, items (a) to (d) and (f) to (i), with what they rest on: every step keeps them ("in every state reached
from INIT by the rules"), with nothing offered by the host's question (log 11). -/
def Obligations.EveryStepKeepsTheBlockInvariant : Prop :=
  ∀ s t : State, s.BlockInv → s.offered = none → step s = .next t → t.BlockInv

/-- Memory's canonical form and the bounds of the address space (20_memory R41) are kept by every step. -/
def Obligations.EveryStepKeepsMemoryCanonical : Prop :=
  ∀ s t : State, s.MemInv → step s = .next t → t.MemInv ∧ t.params = s.params

/-- 30_encoding R75 with 40_framer R91: inside a `write`, what `W` and `SYM` end with is the stream of the buffer up to the
framer's position; every step keeps this, whatever the agents' order. Nothing is offered by the host's question
(log 11). -/
def Obligations.EveryStepKeepsTheStreamInvariant : Prop :=
  ∀ s t : State, s.BlockInv → s.offered = none → s.StreamInv → step s = .next t → t.StreamInv

/-- 41_controller R105, R110, 20_memory R52: a `write` returns only after the full buffer has been emitted, in order: at the
POLL that returns, `W` and `SYM` end with the whole stream of the buffer, the framer is DONE, the timer is stopped and the
line is high. Nothing is offered by the host's question (log 11). -/
def Obligations.WriteReturnsOnlyAfterTheWholeStream : Prop :=
  ∀ s t : State, s.BlockInv → s.StreamInv → s.offered = none → s.mc = .waiting → step s = .next t → t.mc = .ready →
    (∃ w y, t.W = w ++ wireLevels t.payload ∧ t.SYM = y ++ wireSymbols t.payload) ∧
    1 ≤ t.F.length ∧ t.F.phase = .done ∧ t.T.run = false ∧ t.C.busy = false ∧ t.PIN = { dir := .output, level := .high }

/-- 41_controller R110, 42_timer_handler R128, 70_reset R188, R189: after a WRITE of `n >= 1` bytes that lie in the address
space, with interrupts enabled, and for every order in which the main context and the timer are scheduled, if at least
`11n * P` timer cycles are scheduled the machine reaches, after exactly `11n * P` of them, a state that has appended exactly
the wire stream of the buffer to `W` and its symbols to `SYM`, with timer and `busy` cleared and the line high, where the
POLL returns. The orders are the model's schedules (log 8), and nothing is offered by the host's question (log 11). -/
def Obligations.WriteSendsItsBufferAndReturns : Prop :=
  ∀ (s t : State) (buffer n : Nat), s.BlockInv → s.mc = .ready → s.gie = true → s.offered = none → 1 ≤ n →
    n < 2 ^ s.params.lenW → buffer + n ≤ 2 ^ s.params.addrW → s.schedule.all Move.isAgent = true →
    11 * n * s.params.period ≤ timerMoves s.schedule → exec (.writeLen buffer n) s = .next t →
    ∃ k u, Sys2Proof.core.run k t = .next u ∧ k ≤ s.schedule.length + 11 * n ∧
      timerMoves u.schedule + 11 * n * s.params.period = timerMoves s.schedule ∧
      u.W = s.W ++ wireLevels (bufferBytes s.mem buffer n) ∧
      u.SYM = s.SYM ++ wireSymbols (bufferBytes s.mem buffer n) ∧
      u.mc = .waiting ∧ u.C.busy = false ∧ u.T.run = false ∧ u.PIN = { dir := .output, level := .high } ∧
      exec .poll u = .next { u with mc := .ready }

/-! ### Who may change the block -/

/-- 60_exceptions R148, 70_reset R182: whatever is scheduled, nothing but an operation of the three agents changes an
element of the block, with nothing offered by the host's question (log 11). A second caller's call never completes: inside a
`write` a WRITE faults `ReentrantWrite` and an INIT `DoubleInit` (R144, R143), outside one it has no move (log 24). -/
def Obligations.OnlyTheAgentsChangeTheBlock : Prop :=
  ∀ s : State, s.offered = none →
    (∀ t, step s = .next t →
      s.SameBlock t ∨ ∃ i u, isInternal i = false ∧ s.Rescheduled u ∧ exec i u = .next t) ∧
    (∀ e rest, s.isrEnabled = false → s.schedule = .secondCaller e :: rest →
      (∀ t, step s ≠ .next t) ∧
      (s.mc ≠ .waiting → step s = .refused .noSecondCaller) ∧
      (∀ i, s.mc = .waiting → decode e = .ok i → i.wf s.params = true →
        (i = .init → step s = .fault .doubleInit) ∧
        ((∃ b n, i = .writeLen b n) ∨ (∃ b, i = .writeMeasure b) → step s = .fault .reentrantWrite)))
end

