-- ==== Sys2Proof/Laws/Decode.lean ====
section
/-! SUPPORT. The decoder and the encoder: encoding then decoding gives every operation back, no two rows of the table
fit one word, and what a decoded word was. -/

namespace Sys2Proof

/-- What holds of the 256 bytes holds of every byte. -/
theorem forall_byte {P : Byte → Prop} (h : ∀ n : Fin (2 ^ 8), P (BitVec.ofFin n)) (b : Byte) : P b := h b.toFin

/-- No event word fits two rows of the table. -/
theorem rows_disjoint (ev : Byte) : (rows.filter (fun r => r.matches ev)).length ≤ 1 := by
  revert ev
  exact forall_byte (by decide +kernel)

/-- Decoding what was encoded gives the operation back. -/
theorem decode_encode (i : Instr) : decode (encode i) = .ok i := by
  cases i <;> simp [decode, encode, rows, contextRows, advanceRows, framerRows, Row.matches, Instr.word,
    Instr.bufferLane, Instr.lenLane]

/-- Decoding looks at the word and at the two lanes, and the word's row names the operation. -/
theorem decode_ok {e : Event} {i : Instr} (h : decode e = .ok i) :
    ∃ r ∈ rows, r.matches e.ev = true ∧ i = r.build e.buffer e.len := by
  unfold decode at h
  split at h
  · next r hr =>
    refine ⟨r, List.mem_of_find?_eq_some hr, ?_, ?_⟩
    · simpa using List.find?_some hr
    · simpa using h.symm
  · cases h

/-- A word that fits no row is refused under the name of 30_encoding R71. -/
theorem decode_error {e : Event} {r : Reject} (h : decode e = .error r) :
    (∀ q ∈ rows, q.matches e.ev = false) ∧ r = rejectOf e.ev := by
  unfold decode at h
  split at h
  · cases h
  · next hr =>
    refine ⟨fun q hq => ?_, by simpa using h.symm⟩
    simpa using List.find?_eq_none.mp hr q hq

end Sys2Proof
end

