-- ==== Sys2Proof/Laws/State.lean ====
section
/-! SUPPORT. One lemma per field of State and per update of Machine/Ops.lean, each true by rfl, so that no later proof
unfolds a record update. -/

namespace Sys2Proof.Machine

variable (s : State)

@[simp] theorem State.setFramer_F (f : Framer) : (s.setFramer f).F = f := rfl
@[simp] theorem State.setFramer_C (f : Framer) : (s.setFramer f).C = s.C := rfl
@[simp] theorem State.setFramer_T (f : Framer) : (s.setFramer f).T = s.T := rfl
@[simp] theorem State.setFramer_PIN (f : Framer) : (s.setFramer f).PIN = s.PIN := rfl
@[simp] theorem State.setFramer_mc (f : Framer) : (s.setFramer f).mc = s.mc := rfl
@[simp] theorem State.setFramer_SYM (f : Framer) : (s.setFramer f).SYM = s.SYM := rfl
@[simp] theorem State.setFramer_W (f : Framer) : (s.setFramer f).W = s.W := rfl
@[simp] theorem State.setFramer_mem (f : Framer) : (s.setFramer f).mem = s.mem := rfl
@[simp] theorem State.setFramer_gie (f : Framer) : (s.setFramer f).gie = s.gie := rfl
@[simp] theorem State.setFramer_params (f : Framer) : (s.setFramer f).params = s.params := rfl
@[simp] theorem State.setFramer_program (f : Framer) : (s.setFramer f).program = s.program := rfl
@[simp] theorem State.setFramer_schedule (f : Framer) : (s.setFramer f).schedule = s.schedule := rfl
@[simp] theorem State.setFramer_draws (f : Framer) : (s.setFramer f).draws = s.draws := rfl
@[simp] theorem State.setFramer_result (f : Framer) : (s.setFramer f).result = s.result := rfl
@[simp] theorem State.setFramer_offered (f : Framer) : (s.setFramer f).offered = s.offered := rfl

@[simp] theorem State.setBusy_F (b : Bool) : (s.setBusy b).F = s.F := rfl
@[simp] theorem State.setBusy_C (b : Bool) : (s.setBusy b).C = { busy := b } := rfl
@[simp] theorem State.setBusy_T (b : Bool) : (s.setBusy b).T = s.T := rfl
@[simp] theorem State.setBusy_PIN (b : Bool) : (s.setBusy b).PIN = s.PIN := rfl
@[simp] theorem State.setBusy_mc (b : Bool) : (s.setBusy b).mc = s.mc := rfl
@[simp] theorem State.setBusy_SYM (b : Bool) : (s.setBusy b).SYM = s.SYM := rfl
@[simp] theorem State.setBusy_W (b : Bool) : (s.setBusy b).W = s.W := rfl
@[simp] theorem State.setBusy_mem (b : Bool) : (s.setBusy b).mem = s.mem := rfl
@[simp] theorem State.setBusy_gie (b : Bool) : (s.setBusy b).gie = s.gie := rfl
@[simp] theorem State.setBusy_params (b : Bool) : (s.setBusy b).params = s.params := rfl
@[simp] theorem State.setBusy_program (b : Bool) : (s.setBusy b).program = s.program := rfl
@[simp] theorem State.setBusy_schedule (b : Bool) : (s.setBusy b).schedule = s.schedule := rfl
@[simp] theorem State.setBusy_draws (b : Bool) : (s.setBusy b).draws = s.draws := rfl
@[simp] theorem State.setBusy_result (b : Bool) : (s.setBusy b).result = s.result := rfl
@[simp] theorem State.setBusy_offered (b : Bool) : (s.setBusy b).offered = s.offered := rfl

@[simp] theorem State.setTimer_F (t : Timer) : (s.setTimer t).F = s.F := rfl
@[simp] theorem State.setTimer_C (t : Timer) : (s.setTimer t).C = s.C := rfl
@[simp] theorem State.setTimer_T (t : Timer) : (s.setTimer t).T = t := rfl
@[simp] theorem State.setTimer_PIN (t : Timer) : (s.setTimer t).PIN = s.PIN := rfl
@[simp] theorem State.setTimer_mc (t : Timer) : (s.setTimer t).mc = s.mc := rfl
@[simp] theorem State.setTimer_SYM (t : Timer) : (s.setTimer t).SYM = s.SYM := rfl
@[simp] theorem State.setTimer_W (t : Timer) : (s.setTimer t).W = s.W := rfl
@[simp] theorem State.setTimer_mem (t : Timer) : (s.setTimer t).mem = s.mem := rfl
@[simp] theorem State.setTimer_gie (t : Timer) : (s.setTimer t).gie = s.gie := rfl
@[simp] theorem State.setTimer_params (t : Timer) : (s.setTimer t).params = s.params := rfl
@[simp] theorem State.setTimer_program (t : Timer) : (s.setTimer t).program = s.program := rfl
@[simp] theorem State.setTimer_schedule (t : Timer) : (s.setTimer t).schedule = s.schedule := rfl
@[simp] theorem State.setTimer_draws (t : Timer) : (s.setTimer t).draws = s.draws := rfl
@[simp] theorem State.setTimer_result (t : Timer) : (s.setTimer t).result = s.result := rfl
@[simp] theorem State.setTimer_offered (t : Timer) : (s.setTimer t).offered = s.offered := rfl

@[simp] theorem State.setPin_F (p : Pin) : (s.setPin p).F = s.F := rfl
@[simp] theorem State.setPin_C (p : Pin) : (s.setPin p).C = s.C := rfl
@[simp] theorem State.setPin_T (p : Pin) : (s.setPin p).T = s.T := rfl
@[simp] theorem State.setPin_PIN (p : Pin) : (s.setPin p).PIN = p := rfl
@[simp] theorem State.setPin_mc (p : Pin) : (s.setPin p).mc = s.mc := rfl
@[simp] theorem State.setPin_SYM (p : Pin) : (s.setPin p).SYM = s.SYM := rfl
@[simp] theorem State.setPin_W (p : Pin) : (s.setPin p).W = s.W := rfl
@[simp] theorem State.setPin_mem (p : Pin) : (s.setPin p).mem = s.mem := rfl
@[simp] theorem State.setPin_gie (p : Pin) : (s.setPin p).gie = s.gie := rfl
@[simp] theorem State.setPin_params (p : Pin) : (s.setPin p).params = s.params := rfl
@[simp] theorem State.setPin_program (p : Pin) : (s.setPin p).program = s.program := rfl
@[simp] theorem State.setPin_schedule (p : Pin) : (s.setPin p).schedule = s.schedule := rfl
@[simp] theorem State.setPin_draws (p : Pin) : (s.setPin p).draws = s.draws := rfl
@[simp] theorem State.setPin_result (p : Pin) : (s.setPin p).result = s.result := rfl
@[simp] theorem State.setPin_offered (p : Pin) : (s.setPin p).offered = s.offered := rfl

@[simp] theorem State.setMc_F (c : MainState) : (s.setMc c).F = s.F := rfl
@[simp] theorem State.setMc_C (c : MainState) : (s.setMc c).C = s.C := rfl
@[simp] theorem State.setMc_T (c : MainState) : (s.setMc c).T = s.T := rfl
@[simp] theorem State.setMc_PIN (c : MainState) : (s.setMc c).PIN = s.PIN := rfl
@[simp] theorem State.setMc_mc (c : MainState) : (s.setMc c).mc = c := rfl
@[simp] theorem State.setMc_SYM (c : MainState) : (s.setMc c).SYM = s.SYM := rfl
@[simp] theorem State.setMc_W (c : MainState) : (s.setMc c).W = s.W := rfl
@[simp] theorem State.setMc_mem (c : MainState) : (s.setMc c).mem = s.mem := rfl
@[simp] theorem State.setMc_gie (c : MainState) : (s.setMc c).gie = s.gie := rfl
@[simp] theorem State.setMc_params (c : MainState) : (s.setMc c).params = s.params := rfl
@[simp] theorem State.setMc_program (c : MainState) : (s.setMc c).program = s.program := rfl
@[simp] theorem State.setMc_schedule (c : MainState) : (s.setMc c).schedule = s.schedule := rfl
@[simp] theorem State.setMc_draws (c : MainState) : (s.setMc c).draws = s.draws := rfl
@[simp] theorem State.setMc_result (c : MainState) : (s.setMc c).result = s.result := rfl
@[simp] theorem State.setMc_offered (c : MainState) : (s.setMc c).offered = s.offered := rfl

@[simp] theorem State.logSymbol_F (y : Symbol) : (s.logSymbol y).F = s.F := rfl
@[simp] theorem State.logSymbol_C (y : Symbol) : (s.logSymbol y).C = s.C := rfl
@[simp] theorem State.logSymbol_T (y : Symbol) : (s.logSymbol y).T = s.T := rfl
@[simp] theorem State.logSymbol_PIN (y : Symbol) : (s.logSymbol y).PIN = s.PIN := rfl
@[simp] theorem State.logSymbol_mc (y : Symbol) : (s.logSymbol y).mc = s.mc := rfl
@[simp] theorem State.logSymbol_SYM (y : Symbol) : (s.logSymbol y).SYM = s.SYM ++ [y] := rfl
@[simp] theorem State.logSymbol_W (y : Symbol) : (s.logSymbol y).W = s.W := rfl
@[simp] theorem State.logSymbol_mem (y : Symbol) : (s.logSymbol y).mem = s.mem := rfl
@[simp] theorem State.logSymbol_gie (y : Symbol) : (s.logSymbol y).gie = s.gie := rfl
@[simp] theorem State.logSymbol_params (y : Symbol) : (s.logSymbol y).params = s.params := rfl
@[simp] theorem State.logSymbol_program (y : Symbol) : (s.logSymbol y).program = s.program := rfl
@[simp] theorem State.logSymbol_schedule (y : Symbol) : (s.logSymbol y).schedule = s.schedule := rfl
@[simp] theorem State.logSymbol_draws (y : Symbol) : (s.logSymbol y).draws = s.draws := rfl
@[simp] theorem State.logSymbol_result (y : Symbol) : (s.logSymbol y).result = s.result := rfl
@[simp] theorem State.logSymbol_offered (y : Symbol) : (s.logSymbol y).offered = s.offered := rfl

@[simp] theorem State.logLevel_F (l : Level) : (s.logLevel l).F = s.F := rfl
@[simp] theorem State.logLevel_C (l : Level) : (s.logLevel l).C = s.C := rfl
@[simp] theorem State.logLevel_T (l : Level) : (s.logLevel l).T = s.T := rfl
@[simp] theorem State.logLevel_PIN (l : Level) : (s.logLevel l).PIN = s.PIN := rfl
@[simp] theorem State.logLevel_mc (l : Level) : (s.logLevel l).mc = s.mc := rfl
@[simp] theorem State.logLevel_SYM (l : Level) : (s.logLevel l).SYM = s.SYM := rfl
@[simp] theorem State.logLevel_W (l : Level) : (s.logLevel l).W = s.W ++ [l] := rfl
@[simp] theorem State.logLevel_mem (l : Level) : (s.logLevel l).mem = s.mem := rfl
@[simp] theorem State.logLevel_gie (l : Level) : (s.logLevel l).gie = s.gie := rfl
@[simp] theorem State.logLevel_params (l : Level) : (s.logLevel l).params = s.params := rfl
@[simp] theorem State.logLevel_program (l : Level) : (s.logLevel l).program = s.program := rfl
@[simp] theorem State.logLevel_schedule (l : Level) : (s.logLevel l).schedule = s.schedule := rfl
@[simp] theorem State.logLevel_draws (l : Level) : (s.logLevel l).draws = s.draws := rfl
@[simp] theorem State.logLevel_result (l : Level) : (s.logLevel l).result = s.result := rfl
@[simp] theorem State.logLevel_offered (l : Level) : (s.logLevel l).offered = s.offered := rfl

@[simp] theorem State.setMem_F (m : Memory) : (s.setMem m).F = s.F := rfl
@[simp] theorem State.setMem_C (m : Memory) : (s.setMem m).C = s.C := rfl
@[simp] theorem State.setMem_T (m : Memory) : (s.setMem m).T = s.T := rfl
@[simp] theorem State.setMem_PIN (m : Memory) : (s.setMem m).PIN = s.PIN := rfl
@[simp] theorem State.setMem_mc (m : Memory) : (s.setMem m).mc = s.mc := rfl
@[simp] theorem State.setMem_SYM (m : Memory) : (s.setMem m).SYM = s.SYM := rfl
@[simp] theorem State.setMem_W (m : Memory) : (s.setMem m).W = s.W := rfl
@[simp] theorem State.setMem_mem (m : Memory) : (s.setMem m).mem = m := rfl
@[simp] theorem State.setMem_gie (m : Memory) : (s.setMem m).gie = s.gie := rfl
@[simp] theorem State.setMem_params (m : Memory) : (s.setMem m).params = s.params := rfl
@[simp] theorem State.setMem_program (m : Memory) : (s.setMem m).program = s.program := rfl
@[simp] theorem State.setMem_schedule (m : Memory) : (s.setMem m).schedule = s.schedule := rfl
@[simp] theorem State.setMem_draws (m : Memory) : (s.setMem m).draws = s.draws := rfl
@[simp] theorem State.setMem_result (m : Memory) : (s.setMem m).result = s.result := rfl
@[simp] theorem State.setMem_offered (m : Memory) : (s.setMem m).offered = s.offered := rfl

@[simp] theorem State.setGie_F (b : Bool) : (s.setGie b).F = s.F := rfl
@[simp] theorem State.setGie_C (b : Bool) : (s.setGie b).C = s.C := rfl
@[simp] theorem State.setGie_T (b : Bool) : (s.setGie b).T = s.T := rfl
@[simp] theorem State.setGie_PIN (b : Bool) : (s.setGie b).PIN = s.PIN := rfl
@[simp] theorem State.setGie_mc (b : Bool) : (s.setGie b).mc = s.mc := rfl
@[simp] theorem State.setGie_SYM (b : Bool) : (s.setGie b).SYM = s.SYM := rfl
@[simp] theorem State.setGie_W (b : Bool) : (s.setGie b).W = s.W := rfl
@[simp] theorem State.setGie_mem (b : Bool) : (s.setGie b).mem = s.mem := rfl
@[simp] theorem State.setGie_gie (b : Bool) : (s.setGie b).gie = b := rfl
@[simp] theorem State.setGie_params (b : Bool) : (s.setGie b).params = s.params := rfl
@[simp] theorem State.setGie_program (b : Bool) : (s.setGie b).program = s.program := rfl
@[simp] theorem State.setGie_schedule (b : Bool) : (s.setGie b).schedule = s.schedule := rfl
@[simp] theorem State.setGie_draws (b : Bool) : (s.setGie b).draws = s.draws := rfl
@[simp] theorem State.setGie_result (b : Bool) : (s.setGie b).result = s.result := rfl
@[simp] theorem State.setGie_offered (b : Bool) : (s.setGie b).offered = s.offered := rfl

@[simp] theorem State.setProgram_F (q : List Event) : (s.setProgram q).F = s.F := rfl
@[simp] theorem State.setProgram_C (q : List Event) : (s.setProgram q).C = s.C := rfl
@[simp] theorem State.setProgram_T (q : List Event) : (s.setProgram q).T = s.T := rfl
@[simp] theorem State.setProgram_PIN (q : List Event) : (s.setProgram q).PIN = s.PIN := rfl
@[simp] theorem State.setProgram_mc (q : List Event) : (s.setProgram q).mc = s.mc := rfl
@[simp] theorem State.setProgram_SYM (q : List Event) : (s.setProgram q).SYM = s.SYM := rfl
@[simp] theorem State.setProgram_W (q : List Event) : (s.setProgram q).W = s.W := rfl
@[simp] theorem State.setProgram_mem (q : List Event) : (s.setProgram q).mem = s.mem := rfl
@[simp] theorem State.setProgram_gie (q : List Event) : (s.setProgram q).gie = s.gie := rfl
@[simp] theorem State.setProgram_params (q : List Event) : (s.setProgram q).params = s.params := rfl
@[simp] theorem State.setProgram_program (q : List Event) : (s.setProgram q).program = q := rfl
@[simp] theorem State.setProgram_schedule (q : List Event) : (s.setProgram q).schedule = s.schedule := rfl
@[simp] theorem State.setProgram_draws (q : List Event) : (s.setProgram q).draws = s.draws := rfl
@[simp] theorem State.setProgram_result (q : List Event) : (s.setProgram q).result = s.result := rfl
@[simp] theorem State.setProgram_offered (q : List Event) : (s.setProgram q).offered = s.offered := rfl

@[simp] theorem State.setSchedule_F (q : List Move) : (s.setSchedule q).F = s.F := rfl
@[simp] theorem State.setSchedule_C (q : List Move) : (s.setSchedule q).C = s.C := rfl
@[simp] theorem State.setSchedule_T (q : List Move) : (s.setSchedule q).T = s.T := rfl
@[simp] theorem State.setSchedule_PIN (q : List Move) : (s.setSchedule q).PIN = s.PIN := rfl
@[simp] theorem State.setSchedule_mc (q : List Move) : (s.setSchedule q).mc = s.mc := rfl
@[simp] theorem State.setSchedule_SYM (q : List Move) : (s.setSchedule q).SYM = s.SYM := rfl
@[simp] theorem State.setSchedule_W (q : List Move) : (s.setSchedule q).W = s.W := rfl
@[simp] theorem State.setSchedule_mem (q : List Move) : (s.setSchedule q).mem = s.mem := rfl
@[simp] theorem State.setSchedule_gie (q : List Move) : (s.setSchedule q).gie = s.gie := rfl
@[simp] theorem State.setSchedule_params (q : List Move) : (s.setSchedule q).params = s.params := rfl
@[simp] theorem State.setSchedule_program (q : List Move) : (s.setSchedule q).program = s.program := rfl
@[simp] theorem State.setSchedule_schedule (q : List Move) : (s.setSchedule q).schedule = q := rfl
@[simp] theorem State.setSchedule_draws (q : List Move) : (s.setSchedule q).draws = s.draws := rfl
@[simp] theorem State.setSchedule_result (q : List Move) : (s.setSchedule q).result = s.result := rfl
@[simp] theorem State.setSchedule_offered (q : List Move) : (s.setSchedule q).offered = s.offered := rfl

@[simp] theorem State.countDraw_F : s.countDraw.F = s.F := rfl
@[simp] theorem State.countDraw_C : s.countDraw.C = s.C := rfl
@[simp] theorem State.countDraw_T : s.countDraw.T = s.T := rfl
@[simp] theorem State.countDraw_PIN : s.countDraw.PIN = s.PIN := rfl
@[simp] theorem State.countDraw_mc : s.countDraw.mc = s.mc := rfl
@[simp] theorem State.countDraw_SYM : s.countDraw.SYM = s.SYM := rfl
@[simp] theorem State.countDraw_W : s.countDraw.W = s.W := rfl
@[simp] theorem State.countDraw_mem : s.countDraw.mem = s.mem := rfl
@[simp] theorem State.countDraw_gie : s.countDraw.gie = s.gie := rfl
@[simp] theorem State.countDraw_params : s.countDraw.params = s.params := rfl
@[simp] theorem State.countDraw_program : s.countDraw.program = s.program := rfl
@[simp] theorem State.countDraw_schedule : s.countDraw.schedule = s.schedule := rfl
@[simp] theorem State.countDraw_draws : s.countDraw.draws = s.draws + 1 := rfl
@[simp] theorem State.countDraw_result : s.countDraw.result = s.result := rfl
@[simp] theorem State.countDraw_offered : s.countDraw.offered = s.offered := rfl

@[simp] theorem State.setResult_F (r : Result) : (s.setResult r).F = s.F := rfl
@[simp] theorem State.setResult_C (r : Result) : (s.setResult r).C = s.C := rfl
@[simp] theorem State.setResult_T (r : Result) : (s.setResult r).T = s.T := rfl
@[simp] theorem State.setResult_PIN (r : Result) : (s.setResult r).PIN = s.PIN := rfl
@[simp] theorem State.setResult_mc (r : Result) : (s.setResult r).mc = s.mc := rfl
@[simp] theorem State.setResult_SYM (r : Result) : (s.setResult r).SYM = s.SYM := rfl
@[simp] theorem State.setResult_W (r : Result) : (s.setResult r).W = s.W := rfl
@[simp] theorem State.setResult_mem (r : Result) : (s.setResult r).mem = s.mem := rfl
@[simp] theorem State.setResult_gie (r : Result) : (s.setResult r).gie = s.gie := rfl
@[simp] theorem State.setResult_params (r : Result) : (s.setResult r).params = s.params := rfl
@[simp] theorem State.setResult_program (r : Result) : (s.setResult r).program = s.program := rfl
@[simp] theorem State.setResult_schedule (r : Result) : (s.setResult r).schedule = s.schedule := rfl
@[simp] theorem State.setResult_draws (r : Result) : (s.setResult r).draws = s.draws := rfl
@[simp] theorem State.setResult_result (r : Result) : (s.setResult r).result = some r := rfl
@[simp] theorem State.setResult_offered (r : Result) : (s.setResult r).offered = s.offered := rfl

@[simp] theorem State.setOffered_F (o : Option Event) : (s.setOffered o).F = s.F := rfl
@[simp] theorem State.setOffered_C (o : Option Event) : (s.setOffered o).C = s.C := rfl
@[simp] theorem State.setOffered_T (o : Option Event) : (s.setOffered o).T = s.T := rfl
@[simp] theorem State.setOffered_PIN (o : Option Event) : (s.setOffered o).PIN = s.PIN := rfl
@[simp] theorem State.setOffered_mc (o : Option Event) : (s.setOffered o).mc = s.mc := rfl
@[simp] theorem State.setOffered_SYM (o : Option Event) : (s.setOffered o).SYM = s.SYM := rfl
@[simp] theorem State.setOffered_W (o : Option Event) : (s.setOffered o).W = s.W := rfl
@[simp] theorem State.setOffered_mem (o : Option Event) : (s.setOffered o).mem = s.mem := rfl
@[simp] theorem State.setOffered_gie (o : Option Event) : (s.setOffered o).gie = s.gie := rfl
@[simp] theorem State.setOffered_params (o : Option Event) : (s.setOffered o).params = s.params := rfl
@[simp] theorem State.setOffered_program (o : Option Event) : (s.setOffered o).program = s.program := rfl
@[simp] theorem State.setOffered_schedule (o : Option Event) : (s.setOffered o).schedule = s.schedule := rfl
@[simp] theorem State.setOffered_draws (o : Option Event) : (s.setOffered o).draws = s.draws := rfl
@[simp] theorem State.setOffered_result (o : Option Event) : (s.setOffered o).result = s.result := rfl
@[simp] theorem State.setOffered_offered (o : Option Event) : (s.setOffered o).offered = o := rfl

end Sys2Proof.Machine
end

