-- ==== Sys2Proof/Laws/Ops.lean ====
section
/-! SUPPORT. One lemma per shared operation that says everything it can do, which later proofs cite instead of unfolding
the operation. -/

namespace Sys2Proof.Machine

/-! ### Parameters -/

/-- The constraints on the parameters, one by one (92_eei_decisions, table of parameters left OPEN). -/
theorem legal_iff {p : Params} :
    p.legal = true ↔
      1 ≤ p.addrW ∧ 1 ≤ p.lenW ∧ 1 ≤ p.cntW ∧ 1 ≤ p.period ∧ p.period ≤ 2 ^ p.cntW := by
  simp [Params.legal, and_assoc]

/-- The parameters at reset are legal, whatever the implementation fixes. -/
theorem resetParams_legal : Config.params.legal = true := by
  rw [legal_iff]
  refine ⟨by decide, by decide, Nat.le_add_left _ _, Nat.le_add_left _ _, ?_⟩
  exact Nat.mod_lt _ (by positivity)

/-! ### Memory reads and MEASURE -/

/-- A read that answers was inside the address space and gives memory's byte. -/
theorem memRead_ok {p : Params} {m : Memory} {a : Nat} {b : Byte} (h : memRead p m a = .ok b) :
    a < 2 ^ p.addrW ∧ b = m.read a := by
  unfold memRead at h
  split at h
  · next ha => exact ⟨ha, by simpa using h.symm⟩
  · cases h

/-- A read that faults was outside it and records the address. -/
theorem memRead_error {p : Params} {m : Memory} {a : Nat} {e : Fault} (h : memRead p m a = .error e) :
    2 ^ p.addrW ≤ a ∧ e = .bufferOutOfRange a := by
  unfold memRead at h
  split at h
  · cases h
  · next ha => exact ⟨by omega, by simpa using h.symm⟩

/-- The loop of MEASURE answers the first position from `i` on that holds the marker. -/
theorem measureFrom_some {m : Memory} {buffer left i n : Nat} :
    measureFrom m buffer left i = some n ↔
      i ≤ n ∧ n < i + left ∧ m.read (buffer + n) = 0x00#8 ∧ ∀ j, i ≤ j → j < n → m.read (buffer + j) ≠ 0x00#8 := by
  induction left generalizing i with
  | zero => simp [measureFrom]; omega
  | succ left ih =>
    simp only [measureFrom]
    split
    · next hz =>
      constructor
      · intro h
        simp only [Option.some.injEq] at h
        subst h
        exact ⟨le_refl _, by omega, hz, fun j h1 h2 => by omega⟩
      · rintro ⟨h1, _, _, h4⟩
        rcases Nat.eq_or_lt_of_le h1 with h | h
        · rw [h]
        · exact absurd hz (h4 i (le_refl _) h)
    · next hz =>
      rw [ih]
      constructor
      · rintro ⟨h1, h2, h3, h4⟩
        refine ⟨by omega, by omega, h3, fun j hj1 hj2 => ?_⟩
        rcases Nat.eq_or_lt_of_le hj1 with h | h
        · rw [← h]; exact hz
        · exact h4 j h hj2
      · rintro ⟨h1, h2, h3, h4⟩
        refine ⟨?_, by omega, h3, fun j hj1 hj2 => h4 j (by omega) hj2⟩
        rcases Nat.eq_or_lt_of_le h1 with h | h
        · subst h; exact absurd h3 hz
        · exact h

/-- The loop of MEASURE runs out when no position holds the marker. -/
theorem measureFrom_none {m : Memory} {buffer left i : Nat} :
    measureFrom m buffer left i = none ↔ ∀ j, i ≤ j → j < i + left → m.read (buffer + j) ≠ 0x00#8 := by
  induction left generalizing i with
  | zero => simp [measureFrom]; omega
  | succ left ih =>
    simp only [measureFrom]
    split
    · next hz =>
      simp only [reduceCtorEq, false_iff, not_forall]
      exact ⟨i, le_refl _, by omega, fun h => h hz⟩
    · next hz =>
      rw [ih]
      constructor
      · intro h j hj1 hj2
        rcases Nat.eq_or_lt_of_le hj1 with h' | h'
        · rw [← h']; exact hz
        · exact h j h' (by omega)
      · intro h j hj1 hj2
        exact h j (by omega) (by omega)

/-- What MEASURE can do. -/
theorem measureBuffer_cases (p : Params) (m : Memory) (buffer : Nat) :
    (∃ n, measureBuffer p m buffer = .ok n ∧ measureFrom m buffer (measureLimit p buffer) 0 = some n) ∨
    (measureBuffer p m buffer = .error (.unterminated buffer) ∧
      measureFrom m buffer (measureLimit p buffer) 0 = none) := by
  unfold measureBuffer
  cases h : measureFrom m buffer (measureLimit p buffer) 0 with
  | some n => exact .inl ⟨n, rfl, rfl⟩
  | none => exact .inr ⟨rfl, rfl⟩

/-- A measured length is a `LEN_W`-bit count and its marker lies in the address space. -/
theorem measureBuffer_bound {p : Params} {m : Memory} {buffer n : Nat} (h : measureBuffer p m buffer = .ok n) :
    n < 2 ^ p.lenW ∧ buffer + n < 2 ^ p.addrW := by
  rcases measureBuffer_cases p m buffer with ⟨k, h1, h2⟩ | ⟨h1, _⟩
  · rw [h1] at h
    cases h
    have := (measureFrom_some.mp h2).2.1
    unfold measureLimit at this
    omega
  · rw [h1] at h; cases h

/-- MEASURE answers the first marker inside the count and the address space (40_framer R81). -/
theorem measureBuffer_of_marker {p : Params} {m : Memory} {buffer n : Nat} (h1 : n < 2 ^ p.lenW)
    (h2 : buffer + n < 2 ^ p.addrW) (h3 : m.read (buffer + n) = 0x00#8)
    (h4 : ∀ j, j < n → m.read (buffer + j) ≠ 0x00#8) : measureBuffer p m buffer = .ok n := by
  unfold measureBuffer
  rw [measureFrom_some.mpr ⟨Nat.zero_le _, by unfold measureLimit; omega, h3, fun j _ hj => h4 j hj⟩]

/-- MEASURE faults where no position inside the count and the address space holds the marker. -/
theorem measureBuffer_of_no_marker {p : Params} {m : Memory} {buffer : Nat}
    (h : ∀ n, n < 2 ^ p.lenW → buffer + n < 2 ^ p.addrW → m.read (buffer + n) ≠ 0x00#8) :
    measureBuffer p m buffer = .error (.unterminated buffer) := by
  unfold measureBuffer
  rw [measureFrom_none.mpr (fun j _ hj => h j (by unfold measureLimit at hj; omega)
    (by unfold measureLimit at hj; omega))]

/-- FRESET that answers answers a framer over the buffer with the resolved length. -/
theorem freset_ok {p : Params} {m : Memory} {buffer : Nat} {len : Option Nat} {f : Framer}
    (h : freset p m buffer len = .ok f) :
    ∃ n, resolveLength p m buffer len = .ok n ∧ f = Framer.over buffer n := by
  unfold freset at h
  split at h
  · next n hn => exact ⟨n, hn, by simpa using h.symm⟩
  · cases h

/-- FRESET faults only by measuring. -/
theorem freset_error {p : Params} {m : Memory} {buffer : Nat} {len : Option Nat} {e : Fault}
    (h : freset p m buffer len = .error e) : len = none ∧ e = .unterminated buffer := by
  unfold freset at h
  split at h
  · cases h
  · next e' he =>
    simp only [Except.error.injEq] at h
    subst h
    cases len with
    | some n => simp [resolveLength] at he
    | none =>
      refine ⟨rfl, ?_⟩
      rcases measureBuffer_cases p m buffer with ⟨k, h1, _⟩ | ⟨h1, _⟩
      · simp [resolveLength, h1] at he
      · simpa [resolveLength, h1] using he.symm

/-! ### ADVANCE -/

/-- A data bit that is sent was inside the buffer and inside the address space. -/
theorem sendBit_ok {p : Params} {m : Memory} {f : Framer} {h8 : f.bitIndex.val < 8} {a : Symbol × Framer}
    (h : f.sendBit p m h8 = .ok a) :
    f.byteIndex < f.length ∧ f.byteAddress < 2 ^ p.addrW ∧
      a = (bitSymbol (dataBit (m.read f.byteAddress) f.bitIndex.val), { f with bitIndex := nextBit f.bitIndex h8 }) := by
  unfold Framer.sendBit at h
  split at h
  · cases h
  · next hl =>
    split at h
    · next b hb =>
      obtain ⟨h1, h2⟩ := memRead_ok hb
      subst h2
      exact ⟨by omega, h1, by simpa using h.symm⟩
    · cases h

/-- A data bit inside the buffer and inside the address space is sent. -/
theorem sendBit_of_lt {p : Params} {m : Memory} {f : Framer} (h8 : f.bitIndex.val < 8)
    (hl : f.byteIndex < f.length) (ha : f.byteAddress < 2 ^ p.addrW) :
    f.sendBit p m h8 =
      .ok (bitSymbol (dataBit (m.read f.byteAddress) f.bitIndex.val), { f with bitIndex := nextBit f.bitIndex h8 }) := by
  unfold Framer.sendBit
  rw [if_neg (by omega)]
  simp [memRead, ha]

/-- Everything ADVANCE can answer: one case per arm. -/
theorem advance_ok {p : Params} {m : Memory} {f : Framer} {a : Symbol × Framer} (h : f.advance p m = .ok a) :
    (f.phase = .start ∧ a = f.startBit) ∨
    (∃ h8 : f.bitIndex.val < 8, f.phase = .data ∧ f.byteIndex < f.length ∧ f.byteAddress < 2 ^ p.addrW ∧
      a = (bitSymbol (dataBit (m.read f.byteAddress) f.bitIndex.val),
        { f with bitIndex := nextBit f.bitIndex h8 })) ∨
    (f.phase = .data ∧ f.bitIndex = 8 ∧ a = f.endByte) ∨
    (f.phase = .stop ∧ f.byteIndex = f.length ∧ a = f.endStream) ∨
    (f.phase = .stop ∧ f.byteIndex ≠ f.length ∧ a = f.nextByte) ∨
    (f.phase = .done ∧ a = f.stayDone) := by
  unfold Framer.advance at h
  split at h
  · next hp => exact .inl ⟨hp, by simpa using h.symm⟩
  · next hp =>
    split at h
    · next h8 =>
      obtain ⟨h1, h2, h3⟩ := sendBit_ok h
      exact .inr (.inl ⟨h8, hp, h1, h2, h3⟩)
    · next h8 =>
      have hb := f.bitIndex.isLt
      exact .inr (.inr (.inl ⟨hp, Fin.ext (by simp; omega), by simpa using h.symm⟩))
  · next hp =>
    split at h
    · next hl => exact .inr (.inr (.inr (.inl ⟨hp, hl, by simpa using h.symm⟩)))
    · next hl => exact .inr (.inr (.inr (.inr (.inl ⟨hp, hl, by simpa using h.symm⟩))))
  · next hp => exact .inr (.inr (.inr (.inr (.inr ⟨hp, by simpa using h.symm⟩))))

/-- ADVANCE faults only in the data-bit arm, at an index not below the length or an address that does not fit. -/
theorem advance_error {p : Params} {m : Memory} {f : Framer} {e : Fault} (h : f.advance p m = .error e) :
    f.phase = .data ∧ f.bitIndex.val < 8 ∧
      ((f.length ≤ f.byteIndex ∧ e = .bufferOutOfRange f.byteIndex) ∨
       (f.byteIndex < f.length ∧ 2 ^ p.addrW ≤ f.byteAddress ∧ e = .bufferOutOfRange f.byteAddress)) := by
  unfold Framer.advance at h
  split at h
  · cases h
  · next hp =>
    split at h
    · next h8 =>
      refine ⟨hp, h8, ?_⟩
      unfold Framer.sendBit at h
      split at h
      · next hl => exact .inl ⟨hl, by simpa using h.symm⟩
      · next hl =>
        split at h
        · cases h
        · next e' he =>
          obtain ⟨h1, h2⟩ := memRead_error he
          simp only [Except.error.injEq] at h
          exact .inr ⟨by omega, h1, by rw [← h, h2]⟩
    · cases h
  · split at h <;> cases h
  · cases h

/-! ### Power-on -/

/-- From INIT on, an operation that only runs inside another one does what it does. -/
theorem afterInit_of {s : State} {mn : String} {o : Host.Outcome State Fault Refusal} (h : s.mc ≠ .powerOn) :
    s.afterInit mn o = o := if_neg h

/-- At power-on it is refused by name. -/
theorem afterInit_powerOn {s : State} {mn : String} {o : Host.Outcome State Fault Refusal} (h : s.mc = .powerOn) :
    s.afterInit mn o = .refused (.notEnabled mn) := if_pos h

/-- One that answers a next state was performed after INIT. -/
theorem afterInit_next {s t : State} {mn : String} {o : Host.Outcome State Fault Refusal}
    (h : s.afterInit mn o = .next t) : s.mc ≠ .powerOn ∧ o = .next t := by
  unfold State.afterInit at h
  split at h
  · cases h
  · next hm => exact ⟨hm, h⟩

/-- One that faults was performed after INIT. -/
theorem afterInit_fault {s : State} {mn : String} {o : Host.Outcome State Fault Refusal} {e : Fault}
    (h : s.afterInit mn o = .fault e) : s.mc ≠ .powerOn ∧ o = .fault e := by
  unfold State.afterInit at h
  split at h
  · cases h
  · next hm => exact ⟨hm, h⟩

/-! ### The timer -/

/-- Everything a cycle of the timer can answer. -/
theorem cycle_ok {t u : Timer} (h : t.cycle = .ok u) :
    (t.run = false ∧ u = t) ∨
    (t.run = true ∧ t.cnt + 1 = t.period ∧ t.irqPend = false ∧ u = t.endPeriod) ∨
    (t.run = true ∧ t.cnt + 1 ≠ t.period ∧ u = { t with cnt := t.cnt + 1 }) := by
  unfold Timer.cycle at h
  split at h
  · next hr =>
    split at h
    · next hc =>
      split at h
      · cases h
      · next hp => exact .inr (.inl ⟨hr, hc, by simpa using hp, by simpa using h.symm⟩)
    · next hc => exact .inr (.inr ⟨hr, hc, by simpa using h.symm⟩)
  · next hr => exact .inl ⟨by simpa using hr, by simpa using h.symm⟩

/-- A cycle faults only at the end of a period with the last request unserved. -/
theorem cycle_error {t : Timer} {e : Fault} (h : t.cycle = .error e) :
    t.run = true ∧ t.cnt + 1 = t.period ∧ t.irqPend = true ∧ e = .timerOverrun := by
  unfold Timer.cycle at h
  split at h
  · next hr =>
    split at h
    · next hc =>
      split at h
      · next hp => exact ⟨hr, hc, hp, by simpa using h.symm⟩
      · cases h
    · cases h
  · cases h

/-! ### WRITE and the handler -/

/-- WRITE that answers was made in Ready and engages the framer FRESET answered. -/
theorem enterWrite_next {s t : State} {buffer : Nat} {len : Option Nat} (h : s.enterWrite buffer len = .next t) :
    s.mc = .ready ∧ ∃ n, resolveLength s.params s.mem buffer len = .ok n ∧ t = s.engage (Framer.over buffer n) := by
  unfold State.enterWrite at h
  split at h
  · cases h
  · cases h
  · next hm =>
    split at h
    · next f hf =>
      obtain ⟨n, h1, h2⟩ := freset_ok hf
      subst h2
      exact ⟨hm, n, h1, by simpa using h.symm⟩
    · cases h

/-- WRITE over a length of 0 leaves only FRESET's registers behind. -/
theorem engage_zero (s : State) (buffer : Nat) :
    s.engage (Framer.over buffer 0) = s.setFramer (Framer.over buffer 0) := rfl

/-- WRITE over a length that is not 0 raises `busy`, starts the timer and waits. -/
theorem engage_pos (s : State) {f : Framer} (h : f.length ≠ 0) :
    s.engage f = ((s.setFramer f).raiseBusy.startTimer).setMc .waiting := if_neg h

/-- ISR that answers was enabled, and ADVANCE answered. -/
theorem execIsr_next {s t : State} (h : execIsr s = .next t) :
    s.isrEnabled = true ∧ ∃ a, s.F.advance s.params s.mem = .ok a ∧ t = s.clearPending.handle a := by
  unfold execIsr at h
  split at h
  · next he =>
    split at h
    · next a ha =>
      refine ⟨he, a, ha, ?_⟩
      simp only [Host.Outcome.next.injEq] at h
      exact h.symm
    · cases h
  · cases h

/-- START by itself that answers was performed after INIT. -/
theorem execStart_next {s t : State} (h : execStart s = .next t) : s.mc ≠ .powerOn ∧ t = s.startTimer := by
  obtain ⟨hm, h⟩ := afterInit_next h
  exact ⟨hm, by simpa using h.symm⟩

/-- STOP by itself that answers was performed after INIT. -/
theorem execStop_next {s t : State} (h : execStop s = .next t) : s.mc ≠ .powerOn ∧ t = s.stopTransmission := by
  obtain ⟨hm, h⟩ := afterInit_next h
  exact ⟨hm, by simpa using h.symm⟩

/-- TCYCLE that answers was enabled, and the timer took its cycle. -/
theorem execTcycle_next {s t : State} (h : execTcycle s = .next t) :
    s.mc ≠ .powerOn ∧ s.isrEnabled = false ∧ ∃ u, s.T.cycle = .ok u ∧ t = s.setTimer u := by
  unfold execTcycle at h
  split at h
  · cases h
  · next he =>
    simp only [not_or, Bool.not_eq_true] at he
    split at h
    · next u hu => exact ⟨he.1, he.2, u, hu, by simpa using h.symm⟩
    · cases h

/-- POLL that answers was made in Waiting: it changes nothing while `busy`, and returns when not. -/
theorem execPoll_next {s t : State} (h : execPoll s = .next t) :
    s.mc = .waiting ∧ ((s.C.busy = true ∧ t = s) ∨ (s.C.busy = false ∧ t = s.setMc .ready)) := by
  unfold execPoll at h
  split at h
  · cases h
  · cases h
  · next hm =>
    refine ⟨hm, ?_⟩
    split at h
    · next hb => exact .inl ⟨hb, by simpa using h.symm⟩
    · next hb => exact .inr ⟨by simpa [State.readBusy] using hb, by simpa using h.symm⟩

/-- INIT that answers was made at power-on. -/
theorem execInit_next {s t : State} (h : execInit s = .next t) : s.mc = .powerOn ∧ t = s.initialise := by
  unfold execInit at h
  split at h
  · next hm => exact ⟨hm, by simpa using h.symm⟩
  · cases h
  · cases h

/-- The request is served exactly when all four conditions hold. -/
theorem isrEnabled_iff {s : State} :
    s.isrEnabled = true ↔ s.mc ≠ .powerOn ∧ s.T.irqPend = true ∧ s.T.irqEn = true ∧ s.gie = true := by
  simp [State.isrEnabled, State.irq, and_assoc]

end Sys2Proof.Machine
end

