-- ==== Sys2Proof/Laws/Exec.lean ====
section
/-! SUPPORT. What each operation can have done when it answers a next state, one lemma per operation of the framer
(those of the controller and the timer stand in Laws/Ops.lean), and the handler's three outcomes. -/

namespace Sys2Proof.Machine

theorem execAdvStart_next {s t : State} (h : execAdvStart s = .next t) :
    s.mc ≠ .powerOn ∧ s.F.phase = .start ∧ t = s.returnSymbol s.F.startBit := by
  obtain ⟨hm, h⟩ := afterInit_next h
  split at h
  · next hp => exact ⟨hm, hp, by simpa using h.symm⟩
  · cases h

theorem execAdvDataBit_next {s t : State} (h : execAdvDataBit s = .next t) :
    s.mc ≠ .powerOn ∧ s.F.phase = .data ∧ s.F.byteIndex < s.F.length ∧ s.F.byteAddress < 2 ^ s.params.addrW ∧
      ∃ h8 : s.F.bitIndex.val < 8,
        t = s.returnSymbol (bitSymbol (dataBit (s.mem.read s.F.byteAddress) s.F.bitIndex.val),
          { s.F with bitIndex := nextBit s.F.bitIndex h8 }) := by
  obtain ⟨hm, h⟩ := afterInit_next h
  split at h
  · next hp =>
    split at h
    · next h8 =>
      split at h
      · next a ha =>
        obtain ⟨h1, h2, h3⟩ := sendBit_ok ha
        subst h3
        exact ⟨hm, hp, h1, h2, h8, by simpa using h.symm⟩
      · cases h
    · cases h
  · cases h

theorem execAdvDataEnd_next {s t : State} (h : execAdvDataEnd s = .next t) :
    s.mc ≠ .powerOn ∧ s.F.phase = .data ∧ s.F.bitIndex = 8 ∧ t = s.returnSymbol s.F.endByte := by
  obtain ⟨hm, h⟩ := afterInit_next h
  split at h
  · next hp => exact ⟨hm, hp.1, hp.2, by simpa using h.symm⟩
  · cases h

theorem execAdvStopNext_next {s t : State} (h : execAdvStopNext s = .next t) :
    s.mc ≠ .powerOn ∧ s.F.phase = .stop ∧ s.F.byteIndex ≠ s.F.length ∧ t = s.returnSymbol s.F.nextByte := by
  obtain ⟨hm, h⟩ := afterInit_next h
  split at h
  · next hp => exact ⟨hm, hp.1, hp.2, by simpa using h.symm⟩
  · cases h

theorem execAdvStopLast_next {s t : State} (h : execAdvStopLast s = .next t) :
    s.mc ≠ .powerOn ∧ s.F.phase = .stop ∧ s.F.byteIndex = s.F.length ∧ t = s.returnSymbol s.F.endStream := by
  obtain ⟨hm, h⟩ := afterInit_next h
  split at h
  · next hp => exact ⟨hm, hp.1, hp.2, by simpa using h.symm⟩
  · cases h

theorem execAdvDone_next {s t : State} (h : execAdvDone s = .next t) :
    s.mc ≠ .powerOn ∧ s.F.phase = .done ∧ t = s.returnSymbol s.F.stayDone := by
  obtain ⟨hm, h⟩ := afterInit_next h
  split at h
  · next hp => exact ⟨hm, hp, by simpa using h.symm⟩
  · cases h

/-- FRESET that answers answers the framer over the buffer. -/
theorem resetFramer_next {s t : State} {buffer : Nat} {len : Option Nat} (h : s.resetFramer buffer len = .next t) :
    ∃ n, resolveLength s.params s.mem buffer len = .ok n ∧ t = s.setFramer (Framer.over buffer n) := by
  unfold State.resetFramer at h
  split at h
  · next f hf =>
    obtain ⟨n, h1, h2⟩ := freset_ok hf
    subst h2
    exact ⟨n, h1, by simpa using h.symm⟩
  · cases h

theorem execFresetLen_next {s t : State} {buffer len : Nat} (h : execFresetLen buffer len s = .next t) :
    s.mc ≠ .powerOn ∧ t = s.setFramer (Framer.over buffer len) := by
  obtain ⟨hm, h⟩ := afterInit_next h
  obtain ⟨n, h1, h2⟩ := resetFramer_next h
  cases h1
  exact ⟨hm, h2⟩

theorem execFresetMeasure_next {s t : State} {buffer : Nat} (h : execFresetMeasure buffer s = .next t) :
    s.mc ≠ .powerOn ∧ ∃ n, measureBuffer s.params s.mem buffer = .ok n ∧ t = s.setFramer (Framer.over buffer n) := by
  obtain ⟨hm, h⟩ := afterInit_next h
  exact ⟨hm, resetFramer_next h⟩

theorem execMeasure_next {s t : State} {buffer : Nat} (h : execMeasure buffer s = .next t) :
    s.mc ≠ .powerOn ∧ ∃ n, measureBuffer s.params s.mem buffer = .ok n ∧ t = s.setResult (.count n) := by
  obtain ⟨hm, h⟩ := afterInit_next h
  split at h
  · next n hn => exact ⟨hm, n, hn, by simpa using h.symm⟩
  · cases h

/-- What the handler leaves after its symbol: the pin driven and logged, or the transmission stopped. -/
theorem handle_cases (s : State) (a : Symbol × Framer) :
    (a.1 = .zero ∧ s.handle a = ((s.setFramer a.2).logSymbol .zero).drive .low) ∨
    (a.1 = .one ∧ s.handle a = ((s.setFramer a.2).logSymbol .one).drive .high) ∨
    (a.1 = .endOfStream ∧ s.handle a = ((s.setFramer a.2).logSymbol .endOfStream).stopTransmission) := by
  obtain ⟨y, f⟩ := a
  cases y
  · exact .inl ⟨rfl, rfl⟩
  · exact .inr (.inl ⟨rfl, rfl⟩)
  · exact .inr (.inr ⟨rfl, rfl⟩)

end Sys2Proof.Machine
end

