-- ==== Sys2Proof/Laws/Memory.lean ====
section
/-! SUPPORT. The laws of memory: a read gives what was written there, a write leaves every other byte alone, and every
memory operation keeps the canonical form and the address space. -/

namespace Sys2Proof.Machine

theorem Memory.wfFrom_mono {m : Memory} {i j : Nat} (h : j ≤ i) (hw : m.wfFrom i = true) : m.wfFrom j = true := by
  cases m with
  | nil => rfl
  | cons c m =>
    simp only [Memory.wfFrom, Bool.and_eq_true, decide_eq_true_eq] at hw ⊢
    exact ⟨⟨h.trans hw.1.1, hw.1.2⟩, hw.2⟩

/-- Below its least address a canonical list names nothing. -/
theorem Memory.read_below {m : Memory} {i x : Nat} (hw : m.wfFrom i = true) (h : x < i) :
    m.read x = Memory.unlisted := by
  induction m generalizing i with
  | nil => rfl
  | cons c m ih =>
    simp only [Memory.wfFrom, Bool.and_eq_true, decide_eq_true_eq] at hw
    simp only [Memory.read]
    rw [if_neg (by omega)]
    exact ih hw.2 (by omega)

theorem Memory.read_enter_other (m : Memory) {x y : Nat} (v : Byte) (h : x ≠ y) :
    (Memory.enter x v m).read y = m.read y := by
  unfold Memory.enter
  split
  · rfl
  · simp [Memory.read, h]

theorem Memory.read_enter_same {m : Memory} {x : Nat} (v : Byte) (hw : m.wfFrom (x + 1) = true) :
    (Memory.enter x v m).read x = v := by
  unfold Memory.enter
  split
  · next hv => rw [hv]; exact Memory.read_below hw (by omega)
  · simp [Memory.read]

theorem Memory.enter_wf {m : Memory} {i x : Nat} (v : Byte) (hi : i ≤ x) (hw : m.wfFrom (x + 1) = true) :
    (Memory.enter x v m).wfFrom i = true := by
  unfold Memory.enter
  split
  · exact Memory.wfFrom_mono (by omega) hw
  · next hv => simp [Memory.wfFrom, hi, hv, hw]

/-- A write leaves every other byte alone. -/
theorem Memory.read_write_other (m : Memory) {x y : Nat} (v : Byte) (h : x ≠ y) :
    (m.write x v).read y = m.read y := by
  induction m with
  | nil => exact Memory.read_enter_other [] v h
  | cons c m ih =>
    simp only [Memory.write]
    split
    · exact Memory.read_enter_other _ v h
    · split
      · next hx => subst hx; rw [Memory.read_enter_other _ v h]; simp [Memory.read, h]
      · simp only [Memory.read, ih]

theorem Memory.write_wfFrom {m : Memory} {i x : Nat} (v : Byte) (hi : i ≤ x) (hw : m.wfFrom i = true) :
    (m.write x v).wfFrom i = true := by
  induction m generalizing i with
  | nil => exact Memory.enter_wf v hi rfl
  | cons c m ih =>
    have hw' := hw
    simp only [Memory.wfFrom, Bool.and_eq_true, decide_eq_true_eq] at hw
    simp only [Memory.write]
    split
    · refine Memory.enter_wf v hi ?_
      simp only [Memory.wfFrom, Bool.and_eq_true, decide_eq_true_eq]
      exact ⟨⟨by omega, hw.1.2⟩, hw.2⟩
    · split
      · next hx => subst hx; exact Memory.enter_wf v hi hw.2
      · simp only [Memory.wfFrom, Bool.and_eq_true, decide_eq_true_eq]
        exact ⟨hw.1, ih (by omega) hw.2⟩

/-- A write keeps the canonical form. -/
theorem Memory.write_wf {m : Memory} (x : Nat) (v : Byte) (hw : m.wf = true) : (m.write x v).wf = true :=
  Memory.write_wfFrom v (Nat.zero_le x) hw

theorem Memory.read_write_sameFrom {m : Memory} {i x : Nat} (v : Byte) (hw : m.wfFrom i = true) :
    (m.write x v).read x = v := by
  induction m generalizing i with
  | nil => exact Memory.read_enter_same v rfl
  | cons c m ih =>
    simp only [Memory.wfFrom, Bool.and_eq_true, decide_eq_true_eq] at hw
    simp only [Memory.write]
    split
    · refine Memory.read_enter_same v ?_
      simp only [Memory.wfFrom, Bool.and_eq_true, decide_eq_true_eq]
      exact ⟨⟨by omega, hw.1.2⟩, hw.2⟩
    · split
      · next hx => subst hx; exact Memory.read_enter_same v hw.2
      · next hx => simp only [Memory.read]; rw [if_neg (by omega)]; exact ih hw.2

/-- A read after a write to the same address gives the byte written. -/
theorem Memory.read_write_same {m : Memory} (x : Nat) (v : Byte) (hw : m.wf = true) : (m.write x v).read x = v :=
  Memory.read_write_sameFrom v hw

theorem Memory.enter_within {p : Params} {m : Memory} {x : Nat} (v : Byte) (hx : x < 2 ^ p.addrW)
    (h : m.within p = true) : (Memory.enter x v m).within p = true := by
  unfold Memory.enter
  split
  · exact h
  · simpa [Memory.within, hx] using h

/-- A write inside the address space keeps memory inside it. -/
theorem Memory.write_within {p : Params} {m : Memory} {x : Nat} (v : Byte) (hx : x < 2 ^ p.addrW)
    (h : m.within p = true) : (m.write x v).within p = true := by
  induction m with
  | nil => exact Memory.enter_within v hx rfl
  | cons c m ih =>
    have h' : decide (c.1 < 2 ^ p.addrW) = true ∧ Memory.within p m = true := by
      simpa [Memory.within] using h
    simp only [Memory.write]
    split
    · exact Memory.enter_within v hx h
    · split
      · exact Memory.enter_within v hx h'.2
      · have := ih h'.2
        simp only [Memory.within, List.all_cons, Bool.and_eq_true] at this ⊢
        exact ⟨h'.1, this⟩

/-- Putting bytes in memory one after another keeps the canonical form. -/
theorem Memory.load_wf {m : Memory} (addr : Nat) (bytes : List Byte) (hw : m.wf = true) :
    (m.load addr bytes).wf = true := by
  induction bytes generalizing m addr with
  | nil => exact hw
  | cons b rest ih => exact ih (addr + 1) (Memory.write_wf addr b hw)

/-- Canonical memories that read alike are equal lists (stated from a least address). -/
theorem Memory.ext_from {m n : Memory} {i : Nat} (hm : m.wfFrom i = true) (hn : n.wfFrom i = true)
    (h : ∀ x, m.read x = n.read x) : m = n := by
  induction m generalizing n i with
  | nil =>
    cases n with
    | nil => rfl
    | cons c n =>
      simp only [Memory.wfFrom, Bool.and_eq_true, decide_eq_true_eq] at hn
      exact absurd (h c.1).symm (by simpa [Memory.read] using hn.1.2)
  | cons c m ih =>
    simp only [Memory.wfFrom, Bool.and_eq_true, decide_eq_true_eq] at hm
    cases n with
    | nil => exact absurd (h c.1) (by simpa [Memory.read] using hm.1.2)
    | cons d n =>
      simp only [Memory.wfFrom, Bool.and_eq_true, decide_eq_true_eq] at hn
      obtain ⟨a, b⟩ := c
      obtain ⟨a', b'⟩ := d
      have haa : a = a' := by
        rcases Nat.lt_trichotomy a a' with hlt | heq | hgt
        · have := h a
          simp only [Memory.read, if_true] at this
          rw [if_neg (by omega), Memory.read_below hn.2 (by simp; omega)] at this
          exact absurd this hm.1.2
        · exact heq
        · have := h a'
          simp only [Memory.read, if_true] at this
          rw [if_neg (by omega), Memory.read_below hm.2 (by simp; omega)] at this
          exact absurd this.symm hn.1.2
      subst haa
      have hb : b = b' := by simpa [Memory.read] using h a
      subst hb
      have hmn : m = n := ih hm.2 hn.2 (fun x => by
        by_cases hx : a = x
        · subst hx
          rw [Memory.read_below hm.2 (by simp), Memory.read_below hn.2 (by simp)]
        · simpa [Memory.read, hx] using h x)
      rw [hmn]

/-- Canonical memories that read alike are the same data. -/
theorem Memory.ext_read {m n : Memory} (hm : m.wf = true) (hn : n.wf = true) (h : ∀ x, m.read x = n.read x) : m = n :=
  Memory.ext_from hm hn h

/-- Memory at reset is canonical and inside the address space. -/
theorem State.reset_mem_wf : State.reset.mem.wf = true := rfl

theorem State.reset_mem_within (p : Params) : State.reset.mem.within p = true := rfl

end Sys2Proof.Machine
end

