-- ==== Sys2Proof/Laws/PerInstr.lean ====
section
/-! SUPPORT. What holds of every operation as syntax, one lemma per constructor: the family Encoding. -/

namespace Sys2Proof.Laws.Encoding

/-- The encoder and the decoder agree on the operation, exactly one row of the table fits its event word, the word names
neither a reserved operation code nor code 0x0, and a well-formed operation puts on the two lanes what fits their
widths. -/
def Statement (i : Instr) : Prop :=
  decode (encode i) = .ok i ∧
  (rows.filter (fun r => r.matches (encode i).ev)).length = 1 ∧
  0x1#4 ≤ opOf (encode i).ev ∧ opOf (encode i).ev ≤ 0xA#4 ∧
  ∀ p : Params, i.wf p = true → (encode i).buffer < 2 ^ p.addrW ∧ (encode i).len < 2 ^ p.lenW

/-- The four closed facts and the lanes' bounds make the statement. -/
theorem of_word {i : Instr}
    (hw : (rows.filter (fun r => r.matches i.word)).length = 1 ∧ 0x1#4 ≤ opOf i.word ∧ opOf i.word ≤ 0xA#4)
    (hl : ∀ p : Params, i.wf p = true → i.bufferLane < 2 ^ p.addrW ∧ i.lenLane < 2 ^ p.lenW) : Statement i :=
  ⟨decode_encode i, hw.1, hw.2.1, hw.2.2, hl⟩

/-- Lanes that carry no operand are 0 and fit every width. -/
theorem no_lanes (p : Params) : 0 < 2 ^ p.addrW ∧ 0 < 2 ^ p.lenW := ⟨by positivity, by positivity⟩

theorem init : Statement .init := of_word (by decide) fun p _ => no_lanes p

theorem writeLen (buffer len : Nat) : Statement (.writeLen buffer len) :=
  of_word (by simp only [Instr.word]; decide) fun p h => by simpa [Instr.wf, Instr.bufferLane, Instr.lenLane] using h

theorem writeMeasure (buffer : Nat) : Statement (.writeMeasure buffer) :=
  of_word (by simp only [Instr.word]; decide) fun p h =>
    ⟨by simpa [Instr.wf, Instr.bufferLane] using h, (no_lanes p).2⟩

theorem poll : Statement .poll := of_word (by decide) fun p _ => no_lanes p

theorem start : Statement .start := of_word (by decide) fun p _ => no_lanes p

theorem stop : Statement .stop := of_word (by decide) fun p _ => no_lanes p

theorem tcycle : Statement .tcycle := of_word (by decide) fun p _ => no_lanes p

theorem isr : Statement .isr := of_word (by decide) fun p _ => no_lanes p

theorem advStart : Statement .advStart := of_word (by decide) fun p _ => no_lanes p

theorem advDataBit : Statement .advDataBit := of_word (by decide) fun p _ => no_lanes p

theorem advDataEnd : Statement .advDataEnd := of_word (by decide) fun p _ => no_lanes p

theorem advStopNext : Statement .advStopNext := of_word (by decide) fun p _ => no_lanes p

theorem advStopLast : Statement .advStopLast := of_word (by decide) fun p _ => no_lanes p

theorem advDone : Statement .advDone := of_word (by decide) fun p _ => no_lanes p

theorem fresetLen (buffer len : Nat) : Statement (.fresetLen buffer len) :=
  of_word (by simp only [Instr.word]; decide) fun p h => by simpa [Instr.wf, Instr.bufferLane, Instr.lenLane] using h

theorem fresetMeasure (buffer : Nat) : Statement (.fresetMeasure buffer) :=
  of_word (by simp only [Instr.word]; decide) fun p h =>
    ⟨by simpa [Instr.wf, Instr.bufferLane] using h, (no_lanes p).2⟩

theorem measure (buffer : Nat) : Statement (.measure buffer) :=
  of_word (by simp only [Instr.word]; decide) fun p h =>
    ⟨by simpa [Instr.wf, Instr.bufferLane] using h, (no_lanes p).2⟩

end Sys2Proof.Laws.Encoding
end

