-- ==== Sys2Proof/Laws/Step.lean ====
section
/-! SUPPORT. What a step can do: what fetch answers, what exec answers for each operation, and the inversion of step.
Invariants are derived from these and unfold nothing. -/

namespace Sys2Proof.Machine

/-! ### What fetch answers -/

theorem State.Rescheduled.refl (s : State) : s.Rescheduled s := rfl

theorem State.rescheduled_program (s : State) (p : List Event) : s.Rescheduled (s.setProgram p) := rfl

theorem State.rescheduled_schedule (s : State) (q : List Move) : s.Rescheduled (s.setSchedule q) := rfl

theorem State.rescheduled_offered (s : State) (o : Option Event) : s.Rescheduled (s.setOffered o) := rfl

theorem State.rescheduled_draw (s : State) : s.Rescheduled s.countDraw := rfl

theorem State.Rescheduled.trans {s t u : State} (h : s.Rescheduled t) (k : t.Rescheduled u) : s.Rescheduled u := by
  unfold State.Rescheduled at *
  rw [k, h]

/-- What a rescheduled state keeps: everything but the model's bookkeeping. -/
theorem State.Rescheduled.keeps {s t : State} (h : s.Rescheduled t) :
    t.F = s.F ∧ t.C = s.C ∧ t.T = s.T ∧ t.PIN = s.PIN ∧ t.mc = s.mc ∧ t.SYM = s.SYM ∧ t.W = s.W ∧ t.mem = s.mem ∧
      t.gie = s.gie ∧ t.params = s.params ∧ t.result = s.result := by
  unfold State.Rescheduled at h
  rw [h]
  exact ⟨rfl, rfl, rfl, rfl, rfl, rfl, rfl, rfl, rfl, rfl, rfl⟩

/-- An event that runs names a well-formed operation. -/
theorem runEvent_run {s t : State} {e : Event} {i : Instr} (h : s.runEvent e = .run i t) :
    decode e = .ok i ∧ i.wf s.params = true ∧ t = s := by
  unfold State.runEvent at h
  split at h
  · next j hj =>
    split at h
    · next hw =>
      simp only [Fetched.run.injEq] at h
      obtain ⟨h1, h2⟩ := h
      subst h1
      exact ⟨hj, hw, h2.symm⟩
    · cases h
  · cases h

theorem runEvent_not_moved {s t : State} {e : Event} : s.runEvent e ≠ .moved t := by
  unfold State.runEvent
  split
  · split <;> exact fun h => by cases h
  · exact fun h => by cases h

/-- A well-formed event runs. -/
theorem runEvent_of_decode {s : State} {e : Event} {i : Instr} (h : decode e = .ok i) (hw : i.wf s.params = true) :
    s.runEvent e = .run i s := by
  unfold State.runEvent
  rw [h]
  simp [hw]

/-- A call that runs is INIT or WRITE. -/
theorem runCall_run {s t : State} {e : Event} {i : Instr} (h : s.runCall e = .run i t) :
    decode e = .ok i ∧ i.wf s.params = true ∧ isHostCall i = true ∧ t = s := by
  unfold State.runCall at h
  split at h
  · next j u hj =>
    split at h
    · next hc =>
      simp only [Fetched.run.injEq] at h
      obtain ⟨h1, h2⟩ := h
      subst h1 h2
      obtain ⟨a, b, c⟩ := runEvent_run hj
      exact ⟨a, b, hc, c⟩
    · cases h
  · cases h
  · cases h

theorem runCall_not_moved {s t : State} {e : Event} : s.runCall e ≠ .moved t := by
  unfold State.runCall
  split
  · split <;> exact fun h => by cases h
  · next u hu => exact absurd hu runEvent_not_moved
  · exact fun h => by cases h

theorem isInternal_of_isHostCall {i : Instr} (h : isHostCall i = true) : isInternal i = false := by
  cases i <;> first | rfl | cases h

/-- What the main context's move runs: a POLL inside `write`, else a call of the program. -/
theorem mainMove_run {s t : State} {i : Instr} (h : s.mainMove = .run i t) :
    s.Rescheduled t ∧ t.offered = s.offered ∧ i.wf s.params = true ∧
      ((s.mc = .waiting ∧ i = .poll) ∨ (s.mc ≠ .waiting ∧ isHostCall i = true)) := by
  have call : ∀ {u : State}, s.nextCall = .run i u →
      s.Rescheduled u ∧ u.offered = s.offered ∧ i.wf s.params = true ∧ isHostCall i = true := by
    intro u hu
    unfold State.nextCall at hu
    split at hu
    · cases hu
    · obtain ⟨_, h2, h3, h4⟩ := runCall_run hu
      subst h4
      exact ⟨State.rescheduled_program s _, rfl, h2, h3⟩
  unfold State.mainMove at h
  split at h
  · next hm => obtain ⟨a, b, c, d⟩ := call h; exact ⟨a, b, c, .inr ⟨by rw [hm]; decide, d⟩⟩
  · next hm => obtain ⟨a, b, c, d⟩ := call h; exact ⟨a, b, c, .inr ⟨by rw [hm]; decide, d⟩⟩
  · next hm =>
    simp only [Fetched.run.injEq] at h
    obtain ⟨h1, h2⟩ := h
    subst h1 h2
    exact ⟨.refl _, rfl, rfl, .inl ⟨hm, rfl⟩⟩

theorem mainMove_not_moved {s t : State} : s.mainMove ≠ .moved t := by
  have call : s.nextCall ≠ .moved t := by
    unfold State.nextCall
    split
    · exact fun h => by cases h
    · exact runCall_not_moved
  unfold State.mainMove
  split
  · exact call
  · exact call
  · exact fun h => by cases h

/-- What the machine runs by itself: a move of the main context, or a cycle of the timer. -/
theorem freeMove_run {s t : State} {i : Instr} (h : s.freeMove = .run i t) :
    s.Rescheduled t ∧ t.offered = s.offered ∧ i.wf s.params = true ∧ isInternal i = false := by
  have main : ∀ {u : State}, s.Rescheduled u → u.offered = s.offered → u.mainMove = .run i t →
      s.Rescheduled t ∧ t.offered = s.offered ∧ i.wf s.params = true ∧ isInternal i = false := by
    intro u h1 h2 h3
    obtain ⟨a, b, c, d⟩ := mainMove_run h3
    have hp : u.params = s.params := h1.keeps.2.2.2.2.2.2.2.2.2.1
    refine ⟨h1.trans a, b.trans h2, hp ▸ c, ?_⟩
    rcases d with ⟨_, d⟩ | ⟨_, d⟩
    · subst d; rfl
    · exact isInternal_of_isHostCall d
  have tick : ∀ {u : State}, s.Rescheduled u → u.offered = s.offered → Fetched.run .tcycle u = .run i t →
      s.Rescheduled t ∧ t.offered = s.offered ∧ i.wf s.params = true ∧ isInternal i = false := by
    intro u h1 h2 h3
    simp only [Fetched.run.injEq] at h3
    obtain ⟨h4, h5⟩ := h3
    subst h4 h5
    exact ⟨h1, h2, rfl, rfl⟩
  unfold State.freeMove at h
  split at h
  · exact main (.refl s) rfl h
  · split at h
    · exact tick (.refl s) rfl h
    · split at h
      · exact main (State.rescheduled_draw s) rfl h
      · exact tick (State.rescheduled_draw s) rfl h
  · split at h
    · exact main (State.rescheduled_draw s) rfl h
    · exact tick (State.rescheduled_draw s) rfl h

theorem freeMove_not_moved {s t : State} : s.freeMove ≠ .moved t := by
  unfold State.freeMove
  split
  · exact mainMove_not_moved
  · split
    · exact fun h => by cases h
    · split
      · exact mainMove_not_moved
      · exact fun h => by cases h
  · split
    · exact mainMove_not_moved
    · exact fun h => by cases h

/-- A second caller's call that runs is INIT or WRITE inside a `write`. -/
theorem secondCall_run {s t : State} {e : Event} {i : Instr} (h : s.secondCall e = .run i t) :
    s.mc = .waiting ∧ decode e = .ok i ∧ i.wf s.params = true ∧ isHostCall i = true ∧ t = s := by
  unfold State.secondCall at h
  split at h
  · next hm => exact ⟨hm, runCall_run h⟩
  · cases h

theorem secondCall_not_moved {s t : State} {e : Event} : s.secondCall e ≠ .moved t := by
  unfold State.secondCall
  split
  · exact runCall_not_moved
  · exact fun h => by cases h

/-- What the schedule's next move, or a free one, can run: an operation of the agents. -/
theorem nextMove_run {s t : State} {i : Instr} (h : s.nextMove = .run i t) :
    s.Rescheduled t ∧ t.offered = s.offered ∧ i.wf s.params = true ∧ isInternal i = false := by
  unfold State.nextMove at h
  split at h
  · exact freeMove_run h
  · next m rest hs =>
    have hq : s.Rescheduled (s.setSchedule rest) := State.rescheduled_schedule s rest
    unfold State.takeMove at h
    split at h
    · obtain ⟨a, b, c, d⟩ := mainMove_run h
      refine ⟨hq.trans a, b, c, ?_⟩
      rcases d with ⟨_, d⟩ | ⟨_, d⟩
      · subst d; rfl
      · exact isInternal_of_isHostCall d
    · simp only [Fetched.run.injEq] at h
      obtain ⟨h1, h2⟩ := h
      subst h1 h2
      exact ⟨hq, rfl, rfl, rfl⟩
    · obtain ⟨_, _, b, c, d⟩ := secondCall_run h
      subst d
      exact ⟨hq, rfl, b, isInternal_of_isHostCall c⟩
    · unfold State.hostStore at h
      split at h
      · cases h
      · split at h <;> cases h
    · cases h

/-- Everything the outside can do that is no operation: set the interrupt enable, or store one byte of memory while no
`write` is in progress. -/
theorem nextMove_moved {s t : State} (h : s.nextMove = .moved t) :
    ∃ q, (∃ on, t = (s.setSchedule q).setGie on) ∨
      (∃ a v, s.mc ≠ .waiting ∧ a < 2 ^ s.params.addrW ∧ t = (s.setSchedule q).setMem (s.mem.write a v)) := by
  unfold State.nextMove at h
  split at h
  · exact absurd h freeMove_not_moved
  · next m rest hs =>
    unfold State.takeMove at h
    split at h
    · exact absurd h mainMove_not_moved
    · cases h
    · exact absurd h secondCall_not_moved
    · next a v =>
      unfold State.hostStore at h
      split at h
      · cases h
      · next hm =>
        split at h
        · next ha =>
          simp only [Fetched.moved.injEq] at h
          subst h
          exact ⟨rest, .inr ⟨a, v, hm, ha, rfl⟩⟩
        · cases h
    · next on =>
      simp only [Fetched.moved.injEq] at h
      subst h
      exact ⟨rest, .inl ⟨on, rfl⟩⟩

/-- Everything fetch can run: the handler where its request is to be served, else a well-formed operation; only the
model's bookkeeping changes before it. With nothing offered nothing internal runs, and nothing gets offered. -/
theorem fetch_run {s t : State} {i : Instr} (h : s.fetch = .run i t) :
    s.Rescheduled t ∧ i.wf s.params = true ∧ (s.isrEnabled = true → i = .isr) ∧
      (s.offered = none → isInternal i = false ∧ t.offered = none) := by
  unfold State.fetch at h
  split at h
  · simp only [Fetched.run.injEq] at h
    obtain ⟨h1, h2⟩ := h
    subst h1 h2
    exact ⟨.refl s, rfl, fun _ => rfl, fun ho => ⟨rfl, ho⟩⟩
  · next he =>
    have no : ¬ s.isrEnabled = true := he
    split at h
    · next e ho =>
      obtain ⟨a, b, c⟩ := runEvent_run h
      subst c
      exact ⟨State.rescheduled_offered s none, b, fun k => absurd k no, fun h' => by rw [h'] at ho; cases ho⟩
    · next ho =>
      obtain ⟨a, b, c, d⟩ := nextMove_run h
      exact ⟨a, c, fun k => absurd k no, fun _ => ⟨d, b.trans ho⟩⟩

/-- A move that is no operation is taken with no request to serve and nothing offered. -/
theorem fetch_moved {s t : State} (h : s.fetch = .moved t) :
    s.isrEnabled = false ∧ s.offered = none ∧
      ∃ q, (∃ on, t = (s.setSchedule q).setGie on) ∨
        (∃ a v, s.mc ≠ .waiting ∧ a < 2 ^ s.params.addrW ∧ t = (s.setSchedule q).setMem (s.mem.write a v)) := by
  unfold State.fetch at h
  split at h
  · cases h
  · next he =>
    split at h
    · exact absurd h runEvent_not_moved
    · next ho => exact ⟨by simpa using he, ho, nextMove_moved h⟩

/-! ### The inversion of step -/

/-- Everything a step that answers a next state can have done. -/
theorem step_next {s t : State} (h : step s = .next t) :
    (∃ i u, s.fetch = .run i u ∧ exec i u = .next t) ∨ s.fetch = .moved t := by
  unfold step at h
  split at h
  · next i u hf => exact .inl ⟨i, u, hf, h⟩
  · next u hf =>
    simp only [Host.Outcome.next.injEq] at h
    subst h
    exact .inr hf
  · cases h

theorem step_of_run {s u : State} {i : Instr} (h : s.fetch = .run i u) : step s = exec i u := by
  unfold step
  rw [h]

theorem step_of_moved {s u : State} (h : s.fetch = .moved u) : step s = .next u := by
  unfold step
  rw [h]

theorem step_of_stop {s : State} {r : Refusal} (h : s.fetch = .stop r) : step s = .refused r := by
  unfold step
  rw [h]

/-- Where the request is to be served, the handler runs. -/
theorem fetch_isr {s : State} (h : s.isrEnabled = true) : s.fetch = .run .isr s := by
  unfold State.fetch
  rw [if_pos h]

/-- Where no request is to be served, an offered event is performed. -/
theorem fetch_offered {s : State} {e : Event} (h : s.isrEnabled = false) (ho : s.offered = some e) :
    s.fetch = (s.setOffered none).runEvent e := by
  unfold State.fetch
  rw [if_neg (by simp [h]), ho]

/-- Where no request is to be served and nothing is offered, the schedule's next move is taken. -/
theorem fetch_scheduled {s : State} {m : Move} {rest : List Move} (h : s.isrEnabled = false) (ho : s.offered = none)
    (hs : s.schedule = m :: rest) : s.fetch = (s.setSchedule rest).takeMove m := by
  unfold State.fetch
  rw [if_neg (by simp [h]), ho]
  unfold State.nextMove
  rw [hs]

/-- With no schedule either, the agents move freely. -/
theorem fetch_free {s : State} (h : s.isrEnabled = false) (ho : s.offered = none) (hs : s.schedule = []) :
    s.fetch = s.freeMove := by
  unfold State.fetch
  rw [if_neg (by simp [h]), ho]
  unfold State.nextMove
  rw [hs]

/-! ### Runs -/

/-- One step more at the front of a run. -/
theorem run_succ {s t : State} (k : Nat) (h : step s = .next t) :
    Sys2Proof.core.run (k + 1) s = Sys2Proof.core.run k t := by
  have h' : Sys2Proof.core.step s = .next t := h
  simp only [Host.Core.run]
  rw [h']

end Sys2Proof.Machine
end

