-- ==== Sys2Proof/Laws/Wire.lean ====
section
/-! SUPPORT. Laws of the wire's closed forms (30_encoding R66, R75): their lengths, that the two forms agree, and how a
stream grows by one symbol; and of the bits and cycles that make them up. -/

namespace Sys2Proof.Machine

/-! ### Bits and cycles -/

/-- A data bit is never the end of the stream. -/
theorem bitSymbol_ne_end (b : Byte) : bitSymbol b ≠ .endOfStream := by
  unfold bitSymbol
  split <;> decide

/-- The symbol of bit `i` of a byte (30_encoding R67). -/
theorem bitSymbol_dataBit (b : Byte) {i : Nat} (h : i < 8) :
    bitSymbol (dataBit b i) = if b.getLsbD i then .one else .zero := by
  have all : ∀ i : Fin 8, ∀ b : Byte, bitSymbol (dataBit b i) = if b.getLsbD i then .one else .zero := by
    intro i
    apply forall_byte
    revert i
    decide +kernel
  exact all ⟨i, h⟩ b

/-- Cycles of the timer add up. -/
theorem Timer.cycles_add (a b : Nat) (t : Timer) :
    Timer.cycles (a + b) t =
      match Timer.cycles a t with
      | .ok u => Timer.cycles b u
      | .error e => .error e := by
  induction a generalizing t with
  | zero => simp [Timer.cycles]
  | succ a ih =>
    rw [Nat.succ_add]
    simp only [Timer.cycles]
    cases t.cycle with
    | error e => rfl
    | ok u => exact ih u

/-! ### The stream -/

theorem bufferBytes_length (m : Memory) (buf n : Nat) : (bufferBytes m buf n).length = n := by simp [bufferBytes]

theorem byteLevels_length (b : Byte) : (byteLevels b).length = 10 := by simp [byteLevels, bitLevels]

/-- A stream of `n >= 1` bytes drives the pin `11n - 1` times. -/
theorem wireLevels_length : ∀ bytes : List Byte, bytes ≠ [] → (wireLevels bytes).length = 11 * bytes.length - 1
  | [], h => absurd rfl h
  | [b], _ => by simp [wireLevels, byteLevels_length]
  | b :: c :: rest, _ => by
    have := wireLevels_length (c :: rest) (by simp)
    simp only [wireLevels, List.length_append, List.length_cons, byteLevels_length] at *
    omega

/-- A stream of `n` bytes has `11n` symbols. -/
theorem wireSymbols_length (bytes : List Byte) : (wireSymbols bytes).length = 11 * bytes.length := by
  cases bytes with
  | nil => rfl
  | cons b rest =>
    have := wireLevels_length (b :: rest) (by simp)
    simp only [wireSymbols, List.length_append, List.length_map, this, List.length_cons, List.length_nil]
    omega

/-- The closed form looks at the bytes of the buffer only. -/
theorem closedSymbol_congr {f g : Nat → Byte} {n k : Nat} (h : ∀ j, j < n → f j = g j) :
    closedSymbol f n k = closedSymbol g n k := by
  unfold closedSymbol
  split
  · rw [h (k / 11) (by omega)]
  · rfl

/-- The closed form over one byte more, eleven calls later. -/
theorem closedSymbol_shift (f : Nat → Byte) (n k : Nat) (hk : k < 11 * (n + 1)) :
    closedSymbol f (n + 2) (10 + (1 + k)) = closedSymbol (fun j => f (j + 1)) (n + 1) k := by
  have e1 : (10 + (1 + k)) % 11 = k % 11 := by omega
  have e2 : (10 + (1 + k)) / 11 = k / 11 + 1 := by omega
  have e3 : 10 + (1 + k) < 11 * (n + 2) := by omega
  have e4 : (k / 11 + 1 < n + 2 - 1) = (k / 11 < n + 1 - 1) := by simp only [eq_iff_iff]; omega
  unfold closedSymbol
  simp only [e1, e2, e3, hk, e4, if_true]

/-- The ten levels of one byte as symbols, slot by slot (30_encoding R65). -/
theorem byteLevels_symbols (b : Byte) :
    (byteLevels b).map Level.symbol =
      (List.range 10).map (fun k =>
        if k = 0 then Symbol.zero else if k ≤ 8 then (if b.getLsbD (k - 1) then .one else .zero) else .one) := by
  revert b
  apply forall_byte
  decide +kernel

/-- The whole-stream form and the closed form agree (30_encoding R75, R66). -/
theorem wireSymbols_closed : ∀ bytes : List Byte,
    wireSymbols bytes =
      (List.range (11 * bytes.length)).map (closedSymbol (fun j => bytes.getD j 0) bytes.length)
  | [] => rfl
  | [b] => by
    simp only [wireSymbols, wireLevels, byteLevels_symbols]
    rw [show 11 * [b].length = 10 + 1 from rfl, List.range_succ, List.map_append]
    congr 1
  | b :: c :: rest => by
    have ih := wireSymbols_closed (c :: rest)
    have cons : wireSymbols (b :: c :: rest) =
        (byteLevels b).map Level.symbol ++ .one :: wireSymbols (c :: rest) := by
      simp [wireSymbols, wireLevels, Level.symbol]
    rw [cons, ih, byteLevels_symbols]
    have e : 11 * (b :: c :: rest).length = 10 + (1 + 11 * (c :: rest).length) := by simp; omega
    rw [e, List.range_add, List.map_append, List.range_add, List.map_append]
    congr 1
    simp only [List.map_append, List.map_map]
    rw [show List.range 1 = [0] from rfl]
    simp only [List.map_cons, List.map_nil, List.singleton_append, List.cons.injEq]
    constructor
    · have : 10 < 11 * (rest.length + 1 + 1) := by omega
      simp [closedSymbol, this]
    · apply List.map_congr_left
      intro k hk
      have hk := List.mem_range.mp hk
      simp only [List.length_cons, Function.comp] at *
      rw [closedSymbol_shift _ _ _ hk]
      simp only [List.getD_cons_succ]

/-- The same over a buffer in memory. -/
theorem wireSymbols_buffer (m : Memory) (buf n : Nat) :
    wireSymbols (bufferBytes m buf n) =
      (List.range (11 * n)).map (closedSymbol (fun j => m.read (buf + j)) n) := by
  rw [wireSymbols_closed, bufferBytes_length]
  apply List.map_congr_left
  intro k _
  apply closedSymbol_congr
  intro j hj
  simp [bufferBytes, hj]

/-- The symbols sent so far grow by the closed form's next one. -/
theorem wireSymbols_take_succ (m : Memory) (buf n k : Nat) (hk : k < 11 * n) :
    (wireSymbols (bufferBytes m buf n)).take (k + 1) =
      (wireSymbols (bufferBytes m buf n)).take k ++ [closedSymbol (fun j => m.read (buf + j)) n k] := by
  rw [wireSymbols_buffer, List.take_add_one]
  congr 1
  simp [hk]

/-- The levels driven so far are those of the symbols sent so far. -/
theorem wireLevels_take (bytes : List Byte) (k : Nat) :
    ((wireSymbols bytes).take k).filterMap Symbol.level? = (wireLevels bytes).take k := by
  cases bytes with
  | nil => simp [wireSymbols, wireLevels]
  | cons b rest =>
    have back : ∀ l : List Level, (l.map Level.symbol).filterMap Symbol.level? = l := by
      intro l
      induction l with
      | nil => rfl
      | cons x l ih => cases x <;> simp [Level.symbol, Symbol.level?, ih]
    simp only [wireSymbols, List.take_append, List.filterMap_append, ← List.map_take, back]
    have last : ∀ j, (List.take j [Symbol.endOfStream]).filterMap Symbol.level? = [] := by
      intro j
      cases j <;> simp [Symbol.level?]
    rw [last, List.append_nil]

end Sys2Proof.Machine
end

