-- ==== Sys2Proof/Tests/Slice0.lean ====
section
/-! SUPPORT. The model's own tests: the WellFormed smoke test, one event word per row written out from 30_encoding R69 and
R70, at most two single steps per operation with the results of 95_test_vectors, and for every statement that has
hypotheses a state and operands that meet them, at the edges of their ranges. -/

namespace Sys2Proof.Tests

open Sys2Proof.Machine

/-! ### Small states -/

/-- The next state of an outcome. -/
def nextOf : Host.Outcome State Fault Refusal → Option State
  | .next t => some t
  | .fault _ => none
  | .refused _ => none

/-- The fault of an outcome. -/
def faultOf : Host.Outcome State Fault Refusal → Option Fault
  | .next _ => none
  | .fault e => some e
  | .refused _ => none

/-- The refusal of an outcome. -/
def refusalOf : Host.Outcome State Fault Refusal → Option Refusal
  | .next _ => none
  | .fault _ => none
  | .refused r => some r

/-- `P = 4` and the spec's default widths (95_test_vectors 2.8, 00_scope R5). -/
def four : Params := { addrW := 16, lenW := 16, cntW := 8, period := 4 }

/-- Widths small enough to look at every address: eight addresses, lengths below 4, `P = 1`. -/
def tiny : Params := { addrW := 3, lenW := 2, cntW := 1, period := 1 }

/-- Power-on with given parameters and memory. -/
def powered (p : Params) (m : Memory) : State := { State.reset with params := p, mem := m }

/-- After INIT (vector V12) with given parameters and memory. -/
def ready (p : Params) (m : Memory) : State :=
  { powered p m with
    T := { run := false, cnt := 0, period := p.period, irqEn := true, irqPend := false }
    PIN := { dir := .output, level := .high }
    mc := .ready }

/-- Inside a `write` over a framer, with given counter and request. -/
def sending (p : Params) (m : Memory) (f : Framer) (cnt : Nat) (pend : Bool) : State :=
  { ready p m with
    F := f
    C := { busy := true }
    T := { run := true, cnt := cnt, period := p.period, irqEn := true, irqPend := pend }
    mc := .waiting }

/-- The framer `(length, byte_index, bit_index, phase)` of 95_test_vectors over the buffer at 0x0100. -/
def framer (length byteIndex : Nat) (bitIndex : Fin 9) (phase : Phase) : Framer :=
  { buf := 0x0100, length := length, byteIndex := byteIndex, bitIndex := bitIndex, phase := phase }

/-- `Mem(0x0100..0x0101) = 41 A5` (95_test_vectors 2.2). -/
def bytes : Memory := [(0x0100, 0x41#8), (0x0101, 0xA5#8)]

/-- Eight addresses, none of which holds the marker. -/
def full : Memory :=
  [(0, 0x55#8), (1, 0x55#8), (2, 0x55#8), (3, 0x55#8), (4, 0x55#8), (5, 0x55#8), (6, 0x55#8), (7, 0x55#8)]

/-- The framer `(2, byteIndex, bitIndex, phase)` in a Ready state with bytes 41 A5. -/
def framed (byteIndex : Nat) (bitIndex : Fin 9) (phase : Phase) : State :=
  { ready four bytes with F := framer 2 byteIndex bitIndex phase }

/-- What an arm driven by itself returned, and the framer it left. -/
def armed (o : Host.Outcome State Fault Refusal) : Option (Option Result × Framer) :=
  (nextOf o).map (fun t => (t.result, t.F))

/-! ### WellFormed: an ill-formed term for each check -/

theorem test_wf_accepts_the_edges :
    (Instr.writeLen 0xFFFF 0xFFFF).wf four = true ∧ (Instr.fresetLen 0xFFFF 0xFFFF).wf four = true ∧
      (Instr.writeMeasure 7).wf tiny = true ∧ (Instr.measure 0).wf tiny = true := by decide

theorem test_wf_refuses_long_writes :
    (Instr.writeLen 0x10000 1).wf four = false ∧ (Instr.writeLen 1 0x10000).wf four = false ∧
      (Instr.writeMeasure 0x10000).wf four = false := by decide

theorem test_wf_refuses_long_framer_operands :
    (Instr.fresetLen 0x10000 1).wf four = false ∧ (Instr.fresetLen 1 0x10000).wf four = false ∧
      (Instr.fresetMeasure 8).wf tiny = false ∧ (Instr.measure 8).wf tiny = false := by decide

/-- The step refuses an ill-formed operand by name. -/
theorem test_step_refuses_ill_formed :
    refusalOf (step ((ready four bytes).offer (encode (.writeLen 0x10000 1)))) = some (.illFormed "WRITE.LEN") := by
  decide

/-! ### Decoding: every row, bit by bit (30_encoding R69, R70; opcode_table.json) -/

theorem test_decode_main_context :
    decode ⟨0b00010000#8, 0, 0⟩ = .ok .init ∧ decode ⟨0b00100000#8, 5, 6⟩ = .ok (.writeLen 5 6) ∧
      decode ⟨0b00101000#8, 5, 6⟩ = .ok (.writeMeasure 5) ∧ decode ⟨0b00110000#8, 0, 0⟩ = .ok .poll := by decide

theorem test_decode_controller_and_timer :
    decode ⟨0b01000000#8, 0, 0⟩ = .ok .start ∧ decode ⟨0b01010000#8, 0, 0⟩ = .ok .stop ∧
      decode ⟨0b01100000#8, 0, 0⟩ = .ok .tcycle ∧ decode ⟨0b01110000#8, 0, 0⟩ = .ok .isr := by decide

/-- 95_test_vectors 2.3, the sixteen selectors. -/
theorem test_decode_the_sixteen_selectors :
    (List.range 16).map (fun n => (decode ⟨0x80#8 + BitVec.ofNat 8 n, 0, 0⟩).toOption) =
      [some .advStart, some .advStart, some .advStart, some .advStart,
       some .advDataBit, some .advDataBit, some .advDataEnd, some .advDataEnd,
       some .advStopNext, some .advStopLast, some .advStopNext, some .advStopLast,
       some .advDone, some .advDone, some .advDone, some .advDone] := by decide

theorem test_decode_framer :
    decode ⟨0b10010000#8, 5, 6⟩ = .ok (.fresetLen 5 6) ∧ decode ⟨0b10011000#8, 5, 6⟩ = .ok (.fresetMeasure 5) ∧
      decode ⟨0b10100000#8, 5, 6⟩ = .ok (.measure 5) := by decide

/-- 30_encoding R71: a reserved code, the codes at both edges, and a selector that the table does not give. -/
theorem test_decode_refuses_by_name :
    decode ⟨0x00#8, 0, 0⟩ = .error (.reservedOp 0x0#4) ∧ decode ⟨0xB0#8, 0, 0⟩ = .error (.reservedOp 0xB#4) ∧
      decode ⟨0xF8#8, 0, 0⟩ = .error (.reservedOp 0xF#4) ∧
      decode ⟨0x11#8, 0, 0⟩ = .error (.reservedSub 0x1#4 0x1#4) ∧
      decode ⟨0xA8#8, 0, 0⟩ = .error (.reservedSub 0xA#4 0x8#4) := by decide

/-- The opcode table's numbering (log 10): the event word lowest, then the two lanes, here with the reset widths. -/
theorem test_table_word_lanes :
    decodeTableWord 8 0x20 = some (.writeLen 0 0) ∧ decodeTableWord 40 0x0002010020 = some (.writeLen 0x0100 2) ∧
      decodeTableWord 8 0xB0 = none := by decide +kernel

/-! ### The main context (95_test_vectors 2.7) -/

/-- V12. -/
theorem test_init :
    (nextOf (exec .init (powered four bytes))).map (fun t => (t.PIN, t.T, t.F.length, t.F.phase, t.mc)) =
      some (⟨.output, .high⟩, ⟨false, 0, 4, true, false⟩, 0, .start, .ready) := by decide

/-- V20. -/
theorem test_init_twice : faultOf (exec .init (ready four bytes)) = some .doubleInit := by decide

/-- V13. -/
theorem test_write :
    (nextOf (exec (.writeLen 0x0100 1) (ready four bytes))).map (fun t => (t.F, t.C, t.T, t.mc)) =
      some (framer 1 0 0 .start, ⟨true⟩, ⟨true, 0, 4, true, false⟩, .waiting) := by decide

/-- V14. -/
theorem test_write_empty :
    (nextOf (exec (.writeLen 0x0100 0) (ready four bytes))).map (fun t => (t.F, t.C, t.T.run, t.mc)) =
      some (framer 0 0 0 .start, ⟨false⟩, false, .ready) := by decide

/-- V19. -/
theorem test_write_before_init : faultOf (exec (.writeMeasure 0x0100) (powered four bytes)) = some .useBeforeInit := by
  decide

/-- Program P1's WRITE: storage at 0x0200 is 41 00. -/
theorem test_write_measured :
    (nextOf (exec (.writeMeasure 0x0200) (ready four [(0x0200, 0x41#8)]))).map (fun t => (t.F.length, t.mc)) =
      some (1, .waiting) := by decide

/-- V15. -/
theorem test_poll_busy :
    (nextOf (exec .poll (sending four bytes (framer 1 0 0 .start) 0 false))).map (fun t => (t.mc, t.C.busy)) =
      some (.waiting, true) := by decide

/-- V16. -/
theorem test_poll_returns :
    (nextOf (exec .poll ((sending four bytes (framer 1 1 0 .done) 0 false).setBusy false))).map (fun t => t.mc) =
      some .ready := by decide

/-- V17. -/
theorem test_start : (nextOf (exec .start (ready four bytes))).map (fun t => (t.T.run, t.T.cnt)) = some (true, 0) := by
  decide

/-- V18. -/
theorem test_stop :
    (nextOf (exec .stop (sending four bytes (framer 1 1 0 .stop) 0 false))).map (fun t => (t.T.run, t.T.cnt, t.C.busy)) =
      some (false, 0, false) := by decide

/-! ### The timer and the handler (95_test_vectors 2.8) -/

/-- V23. -/
theorem test_tcycle_ends_a_period :
    (nextOf (exec .tcycle (sending four bytes (framer 1 0 0 .start) 3 false))).map (fun t => (t.T.cnt, t.T.irqPend)) =
      some (0, true) := by decide

/-- V25. -/
theorem test_tcycle_overruns :
    faultOf (exec .tcycle ((sending four bytes (framer 1 0 0 .start) 3 true).setGie false)) = some .timerOverrun := by
  decide

/-- V27. -/
theorem test_isr_drives_a_one :
    (nextOf (exec .isr (sending four bytes (framer 1 0 0 .data) 0 true))).map
        (fun t => (t.T.irqPend, t.F, t.PIN.level, t.W, t.SYM)) =
      some (false, framer 1 0 1 .data, .high, [.high], [.one]) := by decide

/-- V28. -/
theorem test_isr_ends_the_stream :
    (nextOf (exec .isr (sending four bytes (framer 1 1 0 .stop) 0 true))).map
        (fun t => (t.F.phase, t.T.run, t.C.busy, t.PIN.level, t.SYM)) =
      some (.done, false, false, .high, [.endOfStream]) := by decide

/-! ### The framer (95_test_vectors 2.1, 2.2) -/

/-- V6a. -/
theorem test_adv_start :
    armed (exec .advStart (framed 0 5 .start)) = some (some (.symbol .zero), framer 2 0 0 .data) := by decide

/-- V6d. -/
theorem test_adv_data_bit_zero :
    armed (exec .advDataBit (framed 0 7 .data)) = some (some (.symbol .zero), framer 2 0 8 .data) := by decide

/-- V6e. -/
theorem test_adv_data_bit_one :
    armed (exec .advDataBit (framed 1 7 .data)) = some (some (.symbol .one), framer 2 1 8 .data) := by decide

/-- V6f. -/
theorem test_adv_data_end :
    armed (exec .advDataEnd (framed 0 8 .data)) = some (some (.symbol .one), framer 2 1 0 .stop) := by decide

/-- V6g. -/
theorem test_adv_stop_next :
    armed (exec .advStopNext (framed 1 0 .stop)) = some (some (.symbol .one), framer 2 1 0 .start) := by decide

/-- V6i. -/
theorem test_adv_stop_last :
    armed (exec .advStopLast (framed 2 0 .stop)) = some (some (.symbol .endOfStream), framer 2 2 0 .done) := by decide

/-- V6j. -/
theorem test_adv_done :
    armed (exec .advDone (framed 2 0 .done)) = some (some (.symbol .endOfStream), framer 2 2 0 .done) := by decide

/-- V6l. -/
theorem test_adv_data_bit_out_of_range :
    faultOf (exec .advDataBit { ready four bytes with F := framer 0 0 0 .data }) = some (.bufferOutOfRange 0) := by decide

/-- V1. -/
theorem test_freset :
    (nextOf (exec (.fresetLen 0x0100 2) { ready four bytes with F := framer 7 7 0 .done })).map (fun t => t.F) =
      some (framer 2 0 0 .start) := by decide

/-- V4. -/
theorem test_freset_measures :
    (nextOf (exec (.fresetMeasure 0x0100) (ready four [(0x0101, 0xFF#8)]))).map (fun t => t.F) =
      some (framer 0 0 0 .start) := by decide

/-- 40_framer R81, its example. -/
theorem test_measure :
    (nextOf (exec (.measure 0x0200) (ready four [(0x0200, 0x41#8)]))).map (fun t => t.result) =
      some (some (.count 1)) := by decide

/-- V5, with the recorded address of 40_framer R81 (log 17). -/
theorem test_measure_unterminated :
    faultOf (exec (.measure 0xFFF0) (ready four (Memory.load [] 0xFFF0 (List.replicate 16 0xFF#8)))) =
      some (.unterminated 0xFFF0) := by decide +kernel

/-! ### Streams (95_test_vectors 2.4) -/

/-- V7j: `00000000111010000000110011111101`. -/
theorem test_wire_of_three_bytes :
    (wireLevels [0x80#8, 0x01#8, 0x7E#8]).map (fun l => l.bit.toNat) =
      [0,0,0,0,0,0,0,0,1,1,1,0,1,0,0,0,0,0,0,0,1,1,0,0,1,1,1,1,1,1,0,1] := by decide +kernel

/-- V7a: eleven calls over `[0x41]`. -/
theorem test_calls_over_one_byte :
    (Framer.calls four [(0x0100, 0x41#8)] 11 (Framer.over 0x0100 1)).toOption.map (fun r => (r.1.length, r.2)) =
      some (11, framer 1 1 0 .done) := by decide +kernel

/-! ### A word offered to the machine is what the next step performs (log 9) -/

theorem test_offered_word_runs_after_reset :
    (nextOf (step (State.reset.withFetchWord 8 0x10))).map (fun t => t.mc) = some .ready ∧
      (nextOf (step (State.reset.withFetchWord 8 0x86))).map (fun t => t.result) = some (some (.symbol .one)) := by
  decide +kernel

/-! ### Witnesses: a state and operands that meet each statement's hypotheses -/

/-- The invariant holds of every Ready state with legal parameters. -/
theorem test_ready_inv : (ready four bytes).BlockInv ∧ (ready tiny full).BlockInv :=
  ⟨⟨by decide, fun _ => by constructor <;> decide, fun _ => by constructor <;> decide⟩,
   ⟨by decide, fun _ => by constructor <;> decide, fun _ => by constructor <;> decide⟩⟩

/-- It holds at the first tick of a `write`, and in the state after the last one. -/
theorem test_sending_inv :
    (sending four bytes (framer 1 0 0 .start) 0 true).BlockInv ∧
      ((sending four bytes (framer 1 1 0 .done) 0 false).stopTransmission).BlockInv :=
  ⟨⟨by decide, fun _ => by constructor <;> decide, fun _ => by constructor <;> decide⟩,
   ⟨by decide, fun _ => by constructor <;> decide, fun _ => by constructor <;> decide⟩⟩

/-- It holds in phase STOP of the last byte, with the request up. -/
theorem test_last_tick_inv : (sending four bytes (framer 1 1 0 .stop) 0 true).BlockInv :=
  ⟨by decide, fun _ => by constructor <;> decide, fun _ => by constructor <;> decide⟩

theorem test_witness_EncodedBitsDecodeBack :
    (Instr.writeLen 0xFFFF 0xFFFF).wf four = true ∧ Instr.init.wf tiny = true ∧ (Instr.measure 7).wf tiny = true := by
  decide

theorem test_witness_ReservedWordsRefusedByName :
    opOf 0x00#8 = 0x0#4 ∧ opOf 0xB0#8 = 0xB#4 ∧ opOf 0xFF#8 = 0xF#4 ∧ subOf 0x98#8 = 0b1000#4 ∧
      decode ⟨0x11#8, 0, 0⟩ = .error (.reservedSub 0x1#4 0x1#4) ∧
      ((ready four bytes).offer ⟨0x11#8, 0, 0⟩).isrEnabled = false ∧
      ((ready four bytes).offer ⟨0x11#8, 0, 0⟩).offered = some ⟨0x11#8, 0, 0⟩ := by decide

theorem test_witness_SelectorNamesTheArm :
    (framer 2 0 7 .data).bitIndex.val < 8 ∧ (framer 2 0 8 .data).bitIndex.val = 8 ∧
      (framer 2 1 0 .stop).byteIndex ≠ (framer 2 1 0 .stop).length ∧
      (framer 2 2 0 .stop).byteIndex = (framer 2 2 0 .stop).length ∧ (framer 2 2 0 .done).phase = .done ∧
      (framer 2 0 0 .start).phase = .start := by decide

theorem test_witness_DataBitIsBitOfByte : 0 ≤ 7 ∧ 7 ≤ 7 := by decide

theorem test_witness_StartArmSendsStartBit :
    0b10000011#8 &&& 0b11111100#8 = 0b10000000#8 ∧ (framer 1 0 5 .start).phase = .start ∧
      (framer 0 0 0 .start).phase = .start ∧ (framer 0 0 0 .start).length = 0 := by decide

/-- The three clauses, at the last index below the length and at the length, at the last address and one past it. -/
theorem test_witness_DataArmSendsOneBit :
    0b10000101#8 &&& 0b11111110#8 = 0b10000100#8 ∧ (framer 2 1 7 .data).bitIndex.val < 8 ∧
      (framer 2 2 0 .data).length ≤ (framer 2 2 0 .data).byteIndex ∧
      (framer 2 1 0 .data).byteIndex < (framer 2 1 0 .data).length ∧
      2 ^ four.addrW ≤ ({ framer 2 1 0 .data with buf := 0xFFFF }).byteAddress ∧
      ({ framer 2 1 0 .data with buf := 0xFFFE }).byteAddress < 2 ^ four.addrW := by decide

theorem test_witness_DataEndArmSendsFirstFramingBit :
    0b10000111#8 &&& 0b11111110#8 = 0b10000110#8 ∧ (framer 1 0 8 .data).phase = .data ∧
      (framer 1 0 8 .data).bitIndex.val = 8 := by decide

theorem test_witness_StopNextArmSendsSecondFramingBit :
    0b10001010#8 &&& 0b11111101#8 = 0b10001000#8 ∧ (framer 2 1 0 .stop).phase = .stop ∧
      (framer 2 1 0 .stop).byteIndex ≠ (framer 2 1 0 .stop).length ∧
      (framer 2 1 0 .stop).byteIndex ≤ (framer 2 1 0 .stop).length := by decide

theorem test_witness_StopLastArmEndsTheStream :
    0b10001011#8 &&& 0b11111101#8 = 0b10001001#8 ∧ (framer 2 2 0 .stop).phase = .stop ∧
      (framer 2 2 0 .stop).byteIndex = (framer 2 2 0 .stop).length := by decide

theorem test_witness_DoneArmIsIdempotent :
    0b10001111#8 &&& 0b11111100#8 = 0b10001100#8 ∧ (framer 2 2 0 .done).phase = .done ∧
      (sending four bytes (framer 1 1 0 .stop) 0 true).BlockInv ∧
      (sending four bytes (framer 1 1 0 .stop) 0 true).isrEnabled = true :=
  ⟨by decide, by decide, test_last_tick_inv, by decide⟩

theorem test_witness_ArmsCompleteByThemselves :
    (framed 0 0 .start).mc ≠ .powerOn ∧ (framed 0 0 .start).F.phase = .start ∧
      ((framed 1 7 .data).F.phase = .data ∧ (framed 1 7 .data).F.bitIndex.val < 8 ∧
        (framed 1 7 .data).F.byteIndex < (framed 1 7 .data).F.length ∧
        (framed 1 7 .data).F.byteAddress < 2 ^ (framed 1 7 .data).params.addrW) ∧
      (framed 1 8 .data).F.bitIndex.val = 8 ∧ (framed 1 0 .stop).F.byteIndex ≠ (framed 1 0 .stop).F.length ∧
      (framed 2 0 .stop).F.byteIndex = (framed 2 0 .stop).F.length ∧ (framed 2 0 .done).F.phase = .done := by decide

/-- The named arm answers in one state and faults in another. -/
theorem test_witness_NamedArmDoesWhatAdvanceDoes :
    (framed 1 7 .data).mc ≠ .powerOn ∧
    decode ⟨(framed 1 7 .data).F.advanceWord, 0, 0⟩ = .ok .advDataBit ∧
      ((framed 1 7 .data).F.advance four bytes).toOption = some (.one, framer 2 1 8 .data) ∧
      decode ⟨(framer 0 0 0 .data).advanceWord, 0, 0⟩ = .ok .advDataBit ∧
      ((framer 0 0 0 .data).advance four bytes).toOption = none := by decide

/-- A marker at the last position that either bound admits, and no marker at all. -/
theorem test_witness_MeasureCountsToTheMarker :
    (ready tiny full).mc ≠ .powerOn ∧
    (3 < 2 ^ tiny.lenW ∧ 4 + 3 < 2 ^ tiny.addrW ∧ Memory.read (full.take 7) (4 + 3) = 0x00#8 ∧
      ∀ j, j < 3 → Memory.read (full.take 7) (4 + j) ≠ 0x00#8) ∧
    (∀ n, n < 2 ^ tiny.lenW → 4 + n < 2 ^ tiny.addrW → Memory.read full (4 + n) ≠ 0x00#8) := by decide

theorem test_witness_FresetSetsTheFramer :
    (ready tiny full).mc ≠ .powerOn ∧
    (0 < 2 ^ tiny.lenW ∧ 7 + 0 < 2 ^ tiny.addrW ∧ Memory.read (full.take 7) (7 + 0) = 0x00#8) ∧
    (∀ n, n < 2 ^ tiny.lenW → 7 + n < 2 ^ tiny.addrW → Memory.read full (7 + n) ≠ 0x00#8) := by decide

theorem test_witness_StartAndStopSetTimerAndBusy :
    (ready four bytes).mc ≠ .powerOn ∧ (sending four bytes (framer 1 1 0 .stop) 0 false).mc ≠ .powerOn := by decide

theorem test_witness_PhaseGraphHasOnlyItsEdges :
    ((framer 2 0 0 .start).advance four bytes).toOption = some (.zero, framer 2 0 0 .data) ∧
      ((framer 2 2 0 .stop).advance four bytes).toOption = some (.endOfStream, framer 2 2 0 .done) := by decide

/-- An engaged framer in each phase. -/
theorem test_witness_PositionCountsTheCalls :
    (framer 2 0 0 .start).Engaged ∧ (framer 2 1 8 .data).Engaged ∧ (framer 2 2 0 .stop).Engaged ∧
      (framer 2 2 0 .done).Engaged := by
  refine ⟨?_, ?_, ?_, ?_⟩ <;> constructor <;> decide

/-- A buffer that ends with the address space. -/
theorem test_witness_FramerMatchesTheClosedForm : 1 ≤ 2 ∧ 0xFFFE + 2 ≤ 2 ^ four.addrW := by decide

theorem test_witness_FramerEmitsTheWireStream : 1 ≤ 1 ∧ 0xFFFF + 1 ≤ 2 ^ four.addrW := by decide

theorem test_witness_InitConfiguresTheBlock :
    (powered four bytes).mc = .powerOn ∧ (ready four bytes).mc ≠ .powerOn := by decide

theorem test_witness_WriteStartsATransmission :
    (ready tiny full).mc = .ready ∧ 1 ≤ 3 ∧ 3 < 2 ^ tiny.lenW ∧ 4 + 3 < 2 ^ tiny.addrW ∧
      Memory.read (full.take 7) (4 + 3) = 0x00#8 ∧
      ∀ j, j < 3 → Memory.read (full.take 7) (4 + j) ≠ 0x00#8 := by decide

theorem test_witness_EmptyWriteIsASilentNoOp :
    (ready tiny (full.take 7)).mc = .ready ∧ measureBuffer tiny (full.take 7) 7 = .ok 0 := by decide

theorem test_witness_MisuseFaultsByName :
    (powered tiny full).mc = .powerOn ∧ (sending tiny full (Framer.over 0 1) 0 false).mc = .waiting ∧
      (ready tiny full).mc = .ready ∧
      ∀ k, k < 2 ^ tiny.lenW → 7 + k < 2 ^ tiny.addrW → Memory.read full (7 + k) ≠ 0x00#8 := by decide

theorem test_witness_PollReturnsWhenNotBusy :
    (sending four bytes (framer 1 0 0 .start) 0 false).mc = .waiting ∧
      (sending four bytes (framer 1 0 0 .start) 0 false).C.busy = true ∧
      ((sending four bytes (framer 1 1 0 .done) 0 false).stopTransmission).C.busy = false := by decide

/-- A WRITE that raises `busy`, and the tick that clears it. -/
theorem test_witness_BusyRisesInWriteAndFallsOnEnd :
    (((ready four bytes).loadProgram [.write 0x0100 (some 1)]).setSchedule [.main]).offered = none ∧
      (nextOf (step (((ready four bytes).loadProgram [.write 0x0100 (some 1)]).setSchedule [.main]))).map
        (fun t => t.C.busy) = some true ∧
      (sending four bytes (framer 1 1 0 .stop) 0 true).offered = none ∧
      (nextOf (step (sending four bytes (framer 1 1 0 .stop) 0 true))).map (fun t => t.C.busy) = some false := by decide

theorem test_witness_WriteCannotBeAborted :
    (sending four bytes (framer 1 0 0 .start) 0 true).mc = .waiting ∧
      (sending four bytes (framer 1 0 0 .start) 0 true).offered = none ∧
      (nextOf (step (sending four bytes (framer 1 0 0 .start) 0 true))).isSome = true := by decide

/-- Two Ready states with different histories, for either form of WRITE. -/
theorem test_witness_NothingLeaksIntoTheNextWrite :
    (ready four bytes).BlockInv ∧
      ((((sending four bytes (framer 1 1 0 .done) 0 false).stopTransmission).setMc .ready)).BlockInv ∧
      (ready four bytes).mem.read 0x0100 ≠ 0x00#8 ∧
      (nextOf (exec (.writeMeasure 0x0100) (ready four bytes))).isSome = true ∧
      (nextOf (exec (.writeLen 0x0100 1) (ready four bytes))).isSome = true :=
  ⟨test_ready_inv.1,
   ⟨by decide, fun _ => by constructor <;> decide, fun _ => by constructor <;> decide⟩, by decide, by decide, by decide⟩

/-- The four clauses: stopped, the last count of a period with and without a request, and the count before it. -/
theorem test_witness_TimerCountsAndRequests :
    ((ready four bytes).mc ≠ .powerOn ∧ (ready four bytes).T.irqPend = false ∧ (ready four bytes).T.run = false) ∧
      ((sending four bytes (framer 1 0 0 .start) 3 false).T.cnt + 1 = four.period ∧
        (sending four bytes (framer 1 0 0 .start) 3 false).T.irqPend = false) ∧
      (((sending four bytes (framer 1 0 0 .start) 3 true).setGie false).gie = false ∧
        ((sending four bytes (framer 1 0 0 .start) 3 true).setGie false).T.irqPend = true) ∧
      (sending four bytes (framer 1 0 0 .start) 2 false).T.cnt + 1 ≠ four.period := by decide

theorem test_witness_RequestComesAfterOnePeriod :
    (sending tiny full (Framer.over 0 1) 0 false).T.run = true ∧ (sending tiny full (Framer.over 0 1) 0 false).T.cnt = 0 ∧
      (sending tiny full (Framer.over 0 1) 0 false).T.irqPend = false ∧
      1 ≤ (sending tiny full (Framer.over 0 1) 0 false).T.period := by decide

/-- An enabled handler at each of its four outcomes. -/
theorem test_witness_HandlerDrivesTheSymbol :
    (sending four bytes (framer 1 0 0 .start) 0 true).isrEnabled = true ∧
      ((framer 1 0 0 .start).advance four bytes).toOption.map (fun a => a.1) = some .zero ∧
      ((framer 1 0 8 .data).advance four bytes).toOption.map (fun a => a.1) = some .one ∧
      ((framer 1 1 0 .stop).advance four bytes).toOption.map (fun a => a.1) = some .endOfStream ∧
      ((framer 0 0 0 .data).advance four bytes).toOption = none := by decide

/-- An engaged framer whose buffer ends with the address space. -/
theorem test_witness_HandlerCompletesOverAnEngagedFramer :
    (sending four bytes { framer 2 1 7 .data with buf := 0xFFFE } 0 true).isrEnabled = true ∧
      (sending four bytes { framer 2 1 7 .data with buf := 0xFFFE } 0 true).F.Engaged ∧ 0xFFFE + 2 ≤ 2 ^ four.addrW :=
  ⟨by decide, by constructor <;> decide, by decide⟩

theorem test_witness_SymbolsDriveThePin :
    (sending four bytes (framer 1 1 0 .stop) 0 true).BlockInv ∧
      (nextOf (exec .isr (sending four bytes (framer 1 1 0 .stop) 0 true))).map (fun t => t.SYM) =
        some [.endOfStream] ∧
      (nextOf (exec .isr (sending four bytes (framer 1 0 0 .start) 0 true))).map (fun t => t.SYM) = some [.zero] ∧
      (nextOf (exec .isr (sending four bytes (framer 1 0 8 .data) 0 true))).map (fun t => t.SYM) = some [.one] ∧
      (nextOf (exec .isr (sending four bytes (framer 2 1 0 .stop) 0 true))).map (fun t => t.SYM) = some [.one] ∧
      (nextOf (exec .isr (sending four bytes (framer 1 0 7 .data) 0 true))).map (fun t => t.PIN.level) = some .low :=
  ⟨test_last_tick_inv, by decide, by decide, by decide, by decide, by decide⟩

/-- The request is up while the main context, the timer and a host's store are scheduled. -/
theorem test_witness_HandlerRunsBeforeEverything :
    ((sending four bytes (framer 1 0 0 .start) 0 true).setSchedule [.main, .timer, .hostStore 0 0#8]).isrEnabled =
      true := by decide

theorem test_witness_NoOverrunWhileInterruptsAreEnabled :
    (sending four bytes (framer 1 0 0 .start) 0 true).BlockInv ∧
      (sending four bytes (framer 1 0 0 .start) 0 true).mc ≠ .powerOn ∧
      (sending four bytes (framer 1 0 0 .start) 0 true).gie = true := ⟨test_sending_inv.1, by decide, by decide⟩

/-- Masked: the POLL that changes nothing, and the overrun at the end of the second period. -/
theorem test_witness_WriteHangsWhileInterruptsAreMasked :
    (nextOf (step (((sending four bytes (framer 1 0 0 .start) 3 true).setGie false).setSchedule [.main]))).map
        (fun t => t.mc) = some .waiting ∧
      faultOf (step (((sending four bytes (framer 1 0 0 .start) 3 true).setGie false).setSchedule [.timer])) =
        some .timerOverrun ∧
      (((sending four bytes (framer 1 0 0 .start) 3 true).setGie false).setSchedule [.timer]).offered = none := by
  decide

theorem test_witness_NoTickWhileStopped :
    (ready four bytes).BlockInv ∧ (ready four bytes).mc ≠ .powerOn ∧ (ready four bytes).T.run = false ∧
      (nextOf (exec .isr (sending four bytes (framer 1 1 0 .stop) 0 true))).map (fun t => t.SYM) =
        some [.endOfStream] := ⟨test_ready_inv.1, by decide, by decide, by decide⟩

theorem test_witness_MainContextFrame :
    (nextOf (exec .init (powered four bytes))).isSome = true ∧
      (nextOf (exec (.writeLen 0x0100 1) (ready four bytes))).isSome = true ∧
      (nextOf (exec .poll (sending four bytes (framer 1 0 0 .start) 0 false))).isSome = true := by decide

theorem test_witness_TimerAndHandlerFrame :
    (nextOf (exec .start (ready four bytes))).isSome = true ∧ (nextOf (exec .stop (ready four bytes))).isSome = true ∧
      (nextOf (exec .tcycle (ready four bytes))).isSome = true ∧
      (nextOf (exec .isr (sending four bytes (framer 1 0 0 .start) 0 true))).isSome = true := by decide

theorem test_witness_FramerFrame :
    (nextOf (exec .advStart (framed 0 0 .start))).isSome = true ∧
      (nextOf (exec .advDone (framed 2 0 .done))).isSome = true ∧
      (nextOf (exec (.fresetLen 0 0) (framed 2 0 .done))).isSome = true ∧
      (nextOf (exec (.measure 0x0100) (framed 2 0 .done))).isSome = true := by decide

theorem test_witness_NoOperationWritesMemory :
    (nextOf (exec .isr (sending four bytes (framer 1 0 0 .data) 0 true))).isSome = true := by decide

theorem test_witness_OnlyInitConfigures :
    (nextOf (exec .init (powered four bytes))).map (fun t => t.T.irqEn) = some true ∧
      (nextOf (exec .stop (ready four bytes))).map (fun t => t.T.irqEn) = some true := by decide

theorem test_witness_OnlyInitAndHandlerDriveThePin :
    (nextOf (exec .isr (sending four bytes (framer 1 0 0 .start) 0 true))).map (fun t => (t.SYM, t.PIN.level)) =
      some ([.zero], .low) := by decide

/-- The DATA-end arm by itself and in the handler, and FRESET. -/
theorem test_witness_OnlyDataEndMovesTheByteIndex :
    (nextOf (exec .advDataEnd (framed 0 8 .data))).map (fun t => t.F.byteIndex) = some 1 ∧
      (nextOf (exec .isr (sending four bytes (framer 1 0 8 .data) 0 true))).map (fun t => t.F.byteIndex) = some 1 ∧
      (nextOf (exec (.fresetLen 0 2) (framed 2 0 .done))).map (fun t => t.F.byteIndex) = some 0 := by decide

theorem test_witness_GhostLogsAreNeverRead :
    (nextOf (exec .isr (sending four bytes (framer 1 0 0 .start) 0 true))).isSome = true ∧
      faultOf (exec .init (ready four bytes)) = some .doubleInit ∧
      refusalOf (exec .poll (ready four bytes)) = some (.notEnabled "POLL") := by decide

/-- 60_exceptions R141, its codes. -/
theorem test_fault_codes :
    (Fault.useBeforeInit.code, Fault.doubleInit.code, Fault.reentrantWrite.code, (Fault.bufferOutOfRange 7).code,
      (Fault.unterminated 7).code, Fault.timerOverrun.code) = (1, 2, 3, 4, 5, 6) := by decide

/-- Each fault is raised somewhere. -/
theorem test_witness_FaultsHaveOnlyTheirCauses :
    faultOf (exec (.writeLen 0 1) (powered four bytes)) = some .useBeforeInit ∧
      faultOf (exec .init (ready four bytes)) = some .doubleInit ∧
      faultOf (exec (.writeLen 0 1) (sending four bytes (framer 1 0 0 .start) 0 false)) = some .reentrantWrite ∧
      faultOf (exec .isr (sending four bytes { framer 1 0 0 .data with buf := 0x10000 } 0 true)) =
        some (.bufferOutOfRange 0x10000) ∧
      faultOf (exec (.measure 7) (ready tiny full)) = some (.unterminated 7) ∧
      faultOf (exec .tcycle ((sending four bytes (framer 1 0 0 .start) 3 true).setGie false)) = some .timerOverrun := by
  decide

/-- The premises of the five clauses. -/
theorem test_witness_StepRunsTheDecodedOperation :
    ((ready four bytes).offer (encode (.fresetLen 0xFFFF 0xFFFF))).isrEnabled = false ∧
      decode (encode (.fresetLen 0xFFFF 0xFFFF)) = .ok (.fresetLen 0xFFFF 0xFFFF) ∧
      (Instr.fresetLen 0xFFFF 0xFFFF).wf (ready four bytes).params = true ∧
      ((sending four bytes (framer 1 0 0 .start) 0 false).setSchedule [.timer]).isrEnabled = false ∧
      ((sending four bytes (framer 1 0 0 .start) 0 false).setSchedule [.main]).offered = none ∧
      ((sending four bytes (framer 1 0 0 .start) 0 false).setSchedule [.main]).mc = .waiting ∧
      (((ready four bytes).loadProgram [.write 0x0100 none]).setSchedule [.main]).program = [encode (.writeMeasure 0x0100)] ∧
      isHostCall (.writeMeasure 0x0100) = true ∧ (ready four bytes).schedule = [] ∧ (ready four bytes).program = [] := by
  decide

/-- A timer's cycle runs, with a second caller's START behind it. -/
theorem test_witness_AgentsRunOnlyTheirOperations :
    ((ready four bytes).setSchedule [.timer, .secondCaller (encode .start)]).offered = none ∧
      (nextOf (step ((ready four bytes).setSchedule [.timer, .secondCaller (encode .start)]))).isSome = true := by decide

/-- A second caller in Ready, and its WRITE, INIT and STOP inside a `write`. -/
theorem test_witness_OnlyTheAgentsChangeTheBlock :
    ((sending four bytes (framer 1 0 0 .start) 0 false).setSchedule [.secondCaller (encode .init)]).isrEnabled = false ∧
      ((sending four bytes (framer 1 0 0 .start) 0 false).setSchedule [.secondCaller (encode .init)]).mc = .waiting ∧
      (Instr.writeLen 0 1).wf four = true ∧
      refusalOf (step ((ready four bytes).setSchedule [.secondCaller (encode (.writeLen 0 1))])) = some .noSecondCaller ∧
      refusalOf (step ((sending four bytes (framer 1 0 0 .start) 0 false).setSchedule [.secondCaller (encode .stop)])) =
        some (.notAHostCall "STOP") := by decide

theorem test_ready_mem_inv : (ready four bytes).MemInv := ⟨by decide, by decide⟩

/-- A store at the last address outside `write`, and one inside it. -/
theorem test_witness_HostStoreChangesOneByteOutsideWrite :
    ((ready four bytes).setSchedule [.hostStore 0xFFFF 0x7E#8]).MemInv ∧
      ((ready four bytes).setSchedule [.hostStore 0xFFFF 0x7E#8]).mc ≠ .waiting ∧ 0xFFFF < 2 ^ four.addrW ∧
      ((sending four bytes (framer 1 0 0 .start) 0 false).setSchedule [.hostStore 0 0#8]).MemInv ∧
      ((sending four bytes (framer 1 0 0 .start) 0 false).setSchedule [.hostStore 0 0#8]).isrEnabled = false ∧
      ((sending four bytes (framer 1 0 0 .start) 0 false).setSchedule [.hostStore 0 0#8]).offered = none :=
  ⟨⟨by decide, by decide⟩, by decide, by decide, ⟨by decide, by decide⟩, by decide, by decide⟩

/-- Power-on with a timer that runs and requests and with interrupts on, where only `mc` keeps the handler and the timer
back. -/
def warm : State :=
  { powered four bytes with
    T := { run := true, cnt := 3, period := 4, irqEn := true, irqPend := true }
    gie := true }

theorem test_witness_PowerOnAllowsOnlyInit :
    warm.mc = .powerOn ∧ warm.irq = true ∧ warm.gie = true ∧ warm.offered = none ∧ warm.schedule = [] ∧
      warm.program = [] ∧ refusalOf (exec .isr warm) = some (.notEnabled "ISR") ∧
      refusalOf (exec .start warm) = some (.notEnabled "START") ∧
      (nextOf (step ((warm.loadProgram [.init]).setSchedule [.main]))).map (fun t => (t.mc, t.T.irqPend)) =
        some (.ready, false) := by decide

theorem test_witness_ResetAndInitMeetTheInvariants :
    State.reset.params.legal = true ∧ (powered four bytes).params.legal = true ∧
      (nextOf (exec .init (powered four bytes))).isSome = true := ⟨resetParams_legal, by decide, by decide⟩

/-- A step from Ready, one from the first tick, and one from power-on: INIT as the program's first call. -/
theorem test_witness_EveryStepKeepsTheBlockInvariant :
    (sending four bytes (framer 1 0 0 .start) 0 true).BlockInv ∧
      (sending four bytes (framer 1 0 0 .start) 0 true).offered = none ∧
      (nextOf (step (sending four bytes (framer 1 0 0 .start) 0 true))).isSome = true ∧
      (nextOf (step (((powered four bytes).loadProgram [.init]).setSchedule [.main]))).map (fun t => t.mc) = some .ready :=
  ⟨test_sending_inv.1, by decide, by decide, by decide⟩

theorem test_witness_EveryStepKeepsMemoryCanonical :
    (ready four bytes).MemInv ∧
      (nextOf (step ((ready four bytes).setSchedule [.hostStore 0x0100 0x00#8]))).map (fun t => t.mem) =
        some [(0x0101, 0xA5#8)] := ⟨test_ready_mem_inv, by decide⟩

/-- In the middle of a byte: two symbols sent, the start bit and bit 0 of 0x41. -/
def midway : State :=
  { sending four bytes (framer 1 0 1 .data) 0 true with SYM := [.endOfStream, .zero, .one], W := [.high, .low, .high] }

theorem test_witness_EveryStepKeepsTheStreamInvariant :
    midway.BlockInv ∧ midway.offered = none ∧ midway.StreamInv ∧ (nextOf (step midway)).isSome = true :=
  ⟨⟨by decide, fun _ => by constructor <;> decide, fun _ => by constructor <;> decide⟩, by decide,
   fun _ => ⟨[.high], [.endOfStream], by decide, by decide⟩, by decide⟩

/-- After the last tick of `[0x41]`, with the POLL scheduled that returns. -/
def sent : State :=
  { ((sending four bytes (framer 1 1 0 .done) 0 false).stopTransmission).setSchedule [.main] with
    SYM := wireSymbols [0x41#8], W := wireLevels [0x41#8] }

theorem test_witness_WriteReturnsOnlyAfterTheWholeStream :
    sent.BlockInv ∧ sent.StreamInv ∧ sent.offered = none ∧ sent.mc = .waiting ∧
      (nextOf (step sent)).map (fun t => t.mc) = some .ready :=
  ⟨⟨by decide, fun _ => by constructor <;> decide, fun _ => by constructor <;> decide⟩,
   fun _ => ⟨[], [], by decide, by decide⟩, by decide, by decide, by decide⟩

/-- One byte at the last address, `P = 1`, eleven cycles, and a POLL among them. -/
theorem test_witness_WriteSendsItsBufferAndReturns :
    ((ready tiny full).setSchedule (.main :: List.replicate 11 .timer)).BlockInv ∧
      ((ready tiny full).setSchedule (.main :: List.replicate 11 .timer)).gie = true ∧
      ((ready tiny full).setSchedule (.main :: List.replicate 11 .timer)).offered = none ∧ 1 < 2 ^ tiny.lenW ∧
      7 + 1 ≤ 2 ^ tiny.addrW ∧
      ((ready tiny full).setSchedule (.main :: List.replicate 11 .timer)).schedule.all Move.isAgent = true ∧
      11 * 1 * tiny.period ≤ timerMoves (.main :: List.replicate 11 .timer) ∧
      (nextOf (exec (.writeLen 7 1) ((ready tiny full).setSchedule (.main :: List.replicate 11 .timer)))).isSome = true :=
  ⟨⟨by decide, fun _ => by constructor <;> decide, fun _ => by constructor <;> decide⟩, by decide, by decide, by decide,
   by decide, by decide, by decide, by decide⟩

end Sys2Proof.Tests
end

section
/-! PROOFS of 10_state R22, R24 and R25: what configures the block and what drives its pin. INIT and the handler have rules
of their own; every other operation keeps the whole pin and the timer's enable and period. -/

namespace Sys2Proof.Machine

/-! ### The pin and the timer under the composite updates -/

@[simp] theorem State.returnSymbol_PIN (s : State) (a : Symbol × Framer) : (s.returnSymbol a).PIN = s.PIN := rfl
@[simp] theorem State.returnSymbol_T (s : State) (a : Symbol × Framer) : (s.returnSymbol a).T = s.T := rfl

@[simp] theorem State.startTimer_PIN (s : State) : s.startTimer.PIN = s.PIN := rfl
@[simp] theorem State.startTimer_irqEn (s : State) : s.startTimer.T.irqEn = s.T.irqEn := rfl
@[simp] theorem State.startTimer_period (s : State) : s.startTimer.T.period = s.T.period := rfl

@[simp] theorem State.stopTransmission_PIN (s : State) : s.stopTransmission.PIN = s.PIN := rfl
@[simp] theorem State.stopTransmission_SYM (s : State) : s.stopTransmission.SYM = s.SYM := rfl
@[simp] theorem State.stopTransmission_irqEn (s : State) : s.stopTransmission.T.irqEn = s.T.irqEn := rfl
@[simp] theorem State.stopTransmission_period (s : State) : s.stopTransmission.T.period = s.T.period := rfl

@[simp] theorem State.clearPending_PIN (s : State) : s.clearPending.PIN = s.PIN := rfl
@[simp] theorem State.clearPending_SYM (s : State) : s.clearPending.SYM = s.SYM := rfl
@[simp] theorem State.clearPending_irqEn (s : State) : s.clearPending.T.irqEn = s.T.irqEn := rfl
@[simp] theorem State.clearPending_period (s : State) : s.clearPending.T.period = s.T.period := rfl

@[simp] theorem State.drive_PIN (s : State) (l : Level) : (s.drive l).PIN = { s.PIN with level := l } := rfl
@[simp] theorem State.drive_SYM (s : State) (l : Level) : (s.drive l).SYM = s.SYM := rfl
@[simp] theorem State.drive_T (s : State) (l : Level) : (s.drive l).T = s.T := rfl

@[simp] theorem State.initialise_PIN (s : State) : s.initialise.PIN = { dir := .output, level := .high } := rfl
@[simp] theorem State.initialise_irqEn (s : State) : s.initialise.T.irqEn = true := rfl
@[simp] theorem State.initialise_period (s : State) : s.initialise.T.period = s.params.period := rfl

/-- What only INIT writes, the pin's direction and the timer's enable and period, stands in `t` as in `s`
(10_state R21, R22, R24). -/
def State.SameConfiguration (s t : State) : Prop :=
  t.T.irqEn = s.T.irqEn ∧ t.PIN.dir = s.PIN.dir ∧ t.T.period = s.T.period

/-! ### The handler -/

theorem handle_SYM (s : State) (a : Symbol × Framer) : (s.handle a).SYM = s.SYM ++ [a.1] := by
  rcases handle_cases s a with ⟨hy, h⟩ | ⟨hy, h⟩ | ⟨hy, h⟩ <;> simp [h, hy]

/-- The handler drives the level of its symbol, and END leaves the pin as it is (30_encoding R63, 42_timer_handler R122). -/
theorem handle_level (s : State) (a : Symbol × Framer) :
    (s.handle a).PIN.level = a.1.level?.getD s.PIN.level := by
  rcases handle_cases s a with ⟨hy, h⟩ | ⟨hy, h⟩ | ⟨hy, h⟩ <;> simp [h, hy, Symbol.level?]

theorem handle_sameConfiguration (s : State) (a : Symbol × Framer) : s.SameConfiguration (s.handle a) := by
  rcases handle_cases s a with ⟨_, h⟩ | ⟨_, h⟩ | ⟨_, h⟩ <;> simp [State.SameConfiguration, h]

theorem execIsr_sameConfiguration {s t : State} (h : execIsr s = .next t) : s.SameConfiguration t := by
  obtain ⟨-, a, -, rfl⟩ := execIsr_next h
  simpa [State.SameConfiguration] using handle_sameConfiguration s.clearPending a

/-! ### The operations beside INIT and the handler -/

theorem engage_PIN (s : State) (f : Framer) : (s.engage f).PIN = s.PIN := by
  unfold State.engage
  split <;> simp [State.raiseBusy]

theorem engage_sameConfiguration (s : State) (f : Framer) : s.SameConfiguration (s.engage f) := by
  unfold State.engage
  split <;> simp [State.SameConfiguration, State.raiseBusy]

theorem enterWrite_keeps_pin {s t : State} {buffer : Nat} {len : Option Nat} (h : s.enterWrite buffer len = .next t) :
    t.PIN = s.PIN ∧ s.SameConfiguration t := by
  obtain ⟨-, n, -, rfl⟩ := enterWrite_next h
  exact ⟨engage_PIN s _, engage_sameConfiguration s _⟩

theorem cycle_keeps_configuration {t u : Timer} (h : t.cycle = .ok u) : u.irqEn = t.irqEn ∧ u.period = t.period := by
  rcases cycle_ok h with ⟨-, rfl⟩ | ⟨-, -, -, rfl⟩ | ⟨-, -, rfl⟩
  · exact ⟨rfl, rfl⟩
  · exact ⟨rfl, rfl⟩
  · exact ⟨rfl, rfl⟩

theorem returnSymbol_keeps_pin (s : State) (a : Symbol × Framer) :
    (s.returnSymbol a).PIN = s.PIN ∧ s.SameConfiguration (s.returnSymbol a) := by
  simp [State.SameConfiguration]

/-- One case per operation: only INIT and the handler touch the pin, and what moves the timer keeps its enable and period. -/
theorem exec_keeps_pin {i : Instr} {s t : State} (h : exec i s = .next t) (hinit : i ≠ .init) (hisr : i ≠ .isr) :
    t.PIN = s.PIN ∧ s.SameConfiguration t := by
  cases i with
  | init => exact absurd rfl hinit
  | isr => exact absurd rfl hisr
  | writeLen buffer len => exact enterWrite_keeps_pin (len := some len) h
  | writeMeasure buffer => exact enterWrite_keeps_pin (len := none) h
  | poll =>
    obtain ⟨-, ⟨-, rfl⟩ | ⟨-, rfl⟩⟩ := execPoll_next h
    · simp [State.SameConfiguration]
    · simp [State.SameConfiguration]
  | start =>
    obtain ⟨-, rfl⟩ := execStart_next h
    simp [State.SameConfiguration]
  | stop =>
    obtain ⟨-, rfl⟩ := execStop_next h
    simp [State.SameConfiguration]
  | tcycle =>
    obtain ⟨-, -, u, hu, rfl⟩ := execTcycle_next h
    simp [State.SameConfiguration, cycle_keeps_configuration hu]
  | advStart =>
    obtain ⟨-, -, rfl⟩ := execAdvStart_next h
    exact returnSymbol_keeps_pin s _
  | advDataBit =>
    obtain ⟨-, -, -, -, h8, rfl⟩ := execAdvDataBit_next h
    exact returnSymbol_keeps_pin s _
  | advDataEnd =>
    obtain ⟨-, -, -, rfl⟩ := execAdvDataEnd_next h
    exact returnSymbol_keeps_pin s _
  | advStopNext =>
    obtain ⟨-, -, -, rfl⟩ := execAdvStopNext_next h
    exact returnSymbol_keeps_pin s _
  | advStopLast =>
    obtain ⟨-, -, -, rfl⟩ := execAdvStopLast_next h
    exact returnSymbol_keeps_pin s _
  | advDone =>
    obtain ⟨-, -, rfl⟩ := execAdvDone_next h
    exact returnSymbol_keeps_pin s _
  | fresetLen buffer len =>
    obtain ⟨-, rfl⟩ := execFresetLen_next h
    simp [State.SameConfiguration]
  | fresetMeasure buffer =>
    obtain ⟨-, n, -, rfl⟩ := execFresetMeasure_next h
    simp [State.SameConfiguration]
  | measure buffer =>
    obtain ⟨-, n, -, rfl⟩ := execMeasure_next h
    simp [State.SameConfiguration]

theorem exec_sameConfiguration {i : Instr} {s t : State} (h : exec i s = .next t) (hinit : i ≠ .init) :
    s.SameConfiguration t := by
  by_cases hisr : i = .isr
  · subst hisr
    exact execIsr_sameConfiguration h
  · exact (exec_keeps_pin h hinit hisr).2

/-- Settles O43: INIT's assignments, and the frame of every other operation. -/
theorem onlyInitConfigures : Obligations.OnlyInitConfigures := by
  intro i s t h
  refine ⟨?_, exec_sameConfiguration h⟩
  rintro rfl
  obtain ⟨-, rfl⟩ := execInit_next h
  exact ⟨State.initialise_irqEn s, congrArg Pin.dir (State.initialise_PIN s), State.initialise_period s⟩

/-! ### The pin's level -/

theorem Pin.wire_of_output {p : Pin} (h : p.dir = .output) : p.wire = some p.level := by
  simp [Pin.wire, h]

/-- The handler logs one symbol and drives the pin as that symbol says (42_timer_handler R122). -/
theorem execIsr_level {s t : State} (h : execIsr s = .next t) :
    ∃ y : Symbol, t.SYM = s.SYM ++ [y] ∧ t.PIN.level = y.level?.getD s.PIN.level := by
  obtain ⟨-, a, -, rfl⟩ := execIsr_next h
  exact ⟨a.1, by simp [handle_SYM], by simp [handle_level]⟩

/-- Settles O44: INIT's level, the handler's level by its symbol, and the frame of every other operation. -/
theorem onlyInitAndHandlerDriveThePin : Obligations.OnlyInitAndHandlerDriveThePin := by
  intro i s t h
  refine ⟨?init, ?handler, fun hinit hisr => congrArg Pin.level (exec_keeps_pin h hinit hisr).1, Pin.wire_of_output,
    rfl, rfl⟩
  case init =>
    rintro rfl
    obtain ⟨-, rfl⟩ := execInit_next h
    exact congrArg Pin.level (State.initialise_PIN s)
  case handler =>
    rintro rfl
    obtain ⟨y, hsym, hlevel⟩ := execIsr_level h
    refine ⟨y, hsym, ?_, ?_, ?_⟩
    · rintro rfl
      exact hlevel
    · rintro rfl
      exact hlevel
    · rintro rfl
      exact hlevel

end Sys2Proof.Machine
end

section
/-! PROOFS of 20_memory R54: no operation writes memory. -/

namespace Sys2Proof.Machine

/-! ### Memory under the composite updates -/

@[simp] theorem State.returnSymbol_mem (s : State) (a : Symbol × Framer) : (s.returnSymbol a).mem = s.mem := rfl
@[simp] theorem State.startTimer_mem (s : State) : s.startTimer.mem = s.mem := rfl
@[simp] theorem State.stopTransmission_mem (s : State) : s.stopTransmission.mem = s.mem := rfl
@[simp] theorem State.clearPending_mem (s : State) : s.clearPending.mem = s.mem := rfl
@[simp] theorem State.raiseBusy_mem (s : State) : s.raiseBusy.mem = s.mem := rfl
@[simp] theorem State.drive_mem (s : State) (l : Level) : (s.drive l).mem = s.mem := rfl
@[simp] theorem State.initialise_mem (s : State) : s.initialise.mem = s.mem := rfl

@[simp] theorem handle_mem (s : State) (a : Symbol × Framer) : (s.handle a).mem = s.mem := by
  rcases handle_cases s a with ⟨-, h⟩ | ⟨-, h⟩ | ⟨-, h⟩ <;> simp [h]

@[simp] theorem engage_mem (s : State) (f : Framer) : (s.engage f).mem = s.mem := by
  unfold State.engage
  split <;> simp

/-! ### The operations -/

theorem enterWrite_mem {s t : State} {buffer : Nat} {len : Option Nat} (h : s.enterWrite buffer len = .next t) :
    t.mem = s.mem := by
  obtain ⟨-, n, -, rfl⟩ := enterWrite_next h
  exact engage_mem s _

/-- One case per operation: what each can have done is made of updates that keep memory. -/
theorem exec_mem {i : Instr} {s t : State} (h : exec i s = .next t) : t.mem = s.mem := by
  cases i with
  | init =>
    obtain ⟨-, rfl⟩ := execInit_next h
    exact State.initialise_mem s
  | writeLen buffer len => exact enterWrite_mem (len := some len) h
  | writeMeasure buffer => exact enterWrite_mem (len := none) h
  | poll =>
    obtain ⟨-, ⟨-, rfl⟩ | ⟨-, rfl⟩⟩ := execPoll_next h
    · rfl
    · exact State.setMc_mem s _
  | start =>
    obtain ⟨-, rfl⟩ := execStart_next h
    exact State.startTimer_mem s
  | stop =>
    obtain ⟨-, rfl⟩ := execStop_next h
    exact State.stopTransmission_mem s
  | tcycle =>
    obtain ⟨-, -, u, -, rfl⟩ := execTcycle_next h
    exact State.setTimer_mem s u
  | isr =>
    obtain ⟨-, a, -, rfl⟩ := execIsr_next h
    simp
  | advStart =>
    obtain ⟨-, -, rfl⟩ := execAdvStart_next h
    exact State.returnSymbol_mem s _
  | advDataBit =>
    obtain ⟨-, -, -, -, h8, rfl⟩ := execAdvDataBit_next h
    exact State.returnSymbol_mem s _
  | advDataEnd =>
    obtain ⟨-, -, -, rfl⟩ := execAdvDataEnd_next h
    exact State.returnSymbol_mem s _
  | advStopNext =>
    obtain ⟨-, -, -, rfl⟩ := execAdvStopNext_next h
    exact State.returnSymbol_mem s _
  | advStopLast =>
    obtain ⟨-, -, -, rfl⟩ := execAdvStopLast_next h
    exact State.returnSymbol_mem s _
  | advDone =>
    obtain ⟨-, -, rfl⟩ := execAdvDone_next h
    exact State.returnSymbol_mem s _
  | fresetLen buffer len =>
    obtain ⟨-, rfl⟩ := execFresetLen_next h
    exact State.setFramer_mem s _
  | fresetMeasure buffer =>
    obtain ⟨-, n, -, rfl⟩ := execFresetMeasure_next h
    exact State.setFramer_mem s _
  | measure buffer =>
    obtain ⟨-, n, -, rfl⟩ := execMeasure_next h
    exact State.setResult_mem s _

/-- Settles O42: every operation keeps the whole memory, so it reads every address as before. -/
theorem noOperationWritesMemory : Obligations.NoOperationWritesMemory := by
  intro i s t h
  have hmem : t.mem = s.mem := exec_mem h
  exact ⟨hmem, fun a => by rw [hmem]⟩

end Sys2Proof.Machine
end

section
/-! PROOFS of 30_encoding R63, R64 and R67: the data bit, the symbol of each arm of ADVANCE, and what a symbol does to the
pin. -/

namespace Sys2Proof.Machine

/-! ### The data bit -/

/-- The data bit as a number, whatever the index: past the byte it is 0. -/
theorem dataBit_eq_ite (b : Byte) (i : Nat) : dataBit b i = if b.getLsbD i then 1#8 else 0#8 := by
  have hbit : dataBit b i = (BitVec.ofBool (b.getLsbD i)).setWidth 8 := by
    simp [dataBit, BitVec.and_one_eq_setWidth_ofBool_getLsbD]
  rw [hbit]
  cases b.getLsbD i <;> rfl

/-- Settles O5: the data bit is 0 or 1 as bit `i` of the byte is clear or set. -/
theorem dataBitIsBitOfByte : Obligations.DataBitIsBitOfByte := by
  intro b i hi
  refine ⟨rfl, ?_, ?_, bitSymbol_dataBit b (by omega)⟩
  · rw [dataBit_eq_ite]
    split
    · exact .inr rfl
    · exact .inl rfl
  · simp [dataBit_eq_ite]

/-- A data bit drives its own value: no inversion between the byte and the wire (30_encoding R64). -/
theorem bitSymbol_dataBit_level (b : Byte) (i : Nat) (l : Level) :
    ((bitSymbol (dataBit b i)).level?.getD l).bit.toNat = (dataBit b i).toNat := by
  rw [dataBit_eq_ite]
  split <;> rfl

/-! ### The symbol of each arm of ADVANCE -/

section
variable {p : Params} {m : Memory} {f : Framer} {a : Symbol × Framer}

theorem advance_of_start (hp : f.phase = .start) : f.advance p m = .ok f.startBit := by
  simp [Framer.advance, hp]

theorem advance_of_dataBit (hp : f.phase = .data) (h8 : f.bitIndex.val < 8) : f.advance p m = f.sendBit p m h8 := by
  simp [Framer.advance, hp, h8]

theorem advance_of_dataEnd (hp : f.phase = .data) (h8 : f.bitIndex.val = 8) : f.advance p m = .ok f.endByte := by
  simp [Framer.advance, hp, h8]

theorem advance_of_stopNext (hp : f.phase = .stop) (hn : f.byteIndex ≠ f.length) : f.advance p m = .ok f.nextByte := by
  simp [Framer.advance, hp, hn]

theorem advance_dataBit_symbol (hp : f.phase = .data) (h8 : f.bitIndex.val < 8) (h : f.advance p m = .ok a) :
    a.1 = bitSymbol (dataBit (m.read f.byteAddress) f.bitIndex.val) := by
  rw [advance_of_dataBit hp h8] at h
  obtain ⟨-, -, rfl⟩ := sendBit_ok h
  rfl

/-- END comes from the last framing bit or after the end, and from no other phase (40_framer R87, R88). -/
theorem advance_end_phase (h : f.advance p m = .ok a) (hend : a.1 = .endOfStream) : f.phase = .stop ∨ f.phase = .done := by
  rcases advance_ok h with
    ⟨-, rfl⟩ | ⟨h8, -, -, -, rfl⟩ | ⟨-, -, rfl⟩ | ⟨hp, -, -⟩ | ⟨hp, -, -⟩ | ⟨hp, -⟩
  · cases hend
  · exact absurd hend (bitSymbol_ne_end _)
  · cases hend
  · exact .inl hp
  · exact .inl hp
  · exact .inr hp

end

/-! ### END at the handler -/

/-- END invokes STOP (30_encoding R63). -/
theorem handle_of_end (s : State) {a : Symbol × Framer} (hend : a.1 = .endOfStream) :
    s.handle a = ((s.setFramer a.2).logSymbol .endOfStream).stopTransmission := by
  simp [State.handle, hend, State.act]

/-- The line is high when the handler obtains END: a served request means a running timer, so the framer is not DONE but
in STOP, where the last framing bit has left the line high. -/
theorem high_before_end {s : State} {a : Symbol × Framer} (hinv : s.BlockInv) (hisr : s.isrEnabled = true)
    (ha : s.F.advance s.params s.mem = .ok a) (hend : a.1 = .endOfStream) : s.PIN.level = .high := by
  obtain ⟨hinit, hpend, -, -⟩ := isrEnabled_iff.mp hisr
  have hrun : s.T.run = true := (hinv.support hinit).pendingRuns hpend
  have hphase : s.F.phase = .stop := by
    obtain ⟨-, hrunning⟩ := (hinv.rules hinit).runningFramer hrun
    rcases advance_end_phase ha hend with hp | hp
    · exact hp
    · simp [hp] at hrunning
  exact ((hinv.support hinit).stopHigh hphase).1

/-- Settles O34: the handler drives its symbol's level, END stops over a line that is already high, and each arm's symbol
is the one its phase gives. -/
theorem symbolsDriveThePin : Obligations.SymbolsDriveThePin := by
  intro s t hinv h
  obtain ⟨hisr, a, ha, rfl⟩ := execIsr_next h
  have hlevel : (s.clearPending.handle a).PIN.level = a.1.level?.getD s.PIN.level := by simp [handle_level]
  refine ⟨a.1, by simp [handle_SYM], ?zero, ?one, ?endOfStream, ?startBit, ?firstFraming, ?secondFraming, ?dataBit⟩
  case zero =>
    intro hy
    rw [hlevel, hy]
    rfl
  case one =>
    intro hy
    rw [hlevel, hy]
    rfl
  case endOfStream =>
    intro hy
    have hhigh : s.PIN.level = .high := high_before_end hinv hisr ha hy
    rw [handle_of_end _ hy]
    exact ⟨rfl, congrArg Level.bit hhigh, rfl, rfl, rfl⟩
  case startBit =>
    intro hp
    cases (advance_of_start hp).symm.trans ha
    rfl
  case firstFraming =>
    intro hp h8
    cases (advance_of_dataEnd hp h8).symm.trans ha
    rfl
  case secondFraming =>
    intro hp hn
    cases (advance_of_stopNext hp hn).symm.trans ha
    rfl
  case dataBit =>
    intro hp h8
    rw [hlevel, advance_dataBit_symbol hp h8 ha]
    exact bitSymbol_dataBit_level _ _ _

end Sys2Proof.Machine
end

section
/-! PROOFS of 40_framer R83 and R86 to R88: an event word that fits a row decodes to it, and what the arms of ADVANCE
beside the data bit answer. -/

namespace Sys2Proof

/-- An event word that fits a row decodes to that row's operation: no second row fits it (30_encoding R69, R70). -/
theorem decode_of_row {r : Row} {ev : Byte} (hr : r ∈ rows) (hm : r.matches ev = true) (b l : Nat) :
    decode ⟨ev, b, l⟩ = .ok (r.build b l) := by
  have hfit : r ∈ rows.filter (fun q => q.matches ev) := List.mem_filter.mpr ⟨hr, hm⟩
  obtain ⟨q, hq⟩ : ∃ q, rows.filter (fun q => q.matches ev) = [q] :=
    List.length_eq_one_iff.mp (le_antisymm (rows_disjoint ev) (List.length_pos_of_mem hfit))
  obtain rfl : r = q := by simpa [hq] using hfit
  have hfind : rows.find? (fun q => q.matches ev) = some r := by rw [← List.head?_filter, hq, List.head?_cons]
  simp [decode, hfind]

/-- An event word `ev` that agrees with the pattern of an arm of ADVANCE decodes to that arm. -/
theorem decode_of_advanceRow {mask word ev : Byte} {i : Instr} (hr : ⟨mask, word, fun _ _ => i⟩ ∈ advanceRows)
    (hev : ev &&& mask = word) (b l : Nat) : decode ⟨ev, b, l⟩ = .ok i :=
  decode_of_row (List.mem_append_left _ (List.mem_append_right _ hr)) (beq_iff_eq.mpr hev) b l

end Sys2Proof

namespace Sys2Proof.Machine

section
variable {p : Params} {m : Memory} {f : Framer}

theorem advance_of_stopLast (hp : f.phase = .stop) (hl : f.byteIndex = f.length) : f.advance p m = .ok f.endStream := by
  simp [Framer.advance, hp, hl]

theorem advance_of_done (hp : f.phase = .done) : f.advance p m = .ok f.stayDone := by
  simp [Framer.advance, hp]

/-- No byte is left to send: the data bit faults (40_framer R84). -/
theorem sendBit_of_length_le (h8 : f.bitIndex.val < 8) (hl : f.length ≤ f.byteIndex) :
    f.sendBit p m h8 = .error (.bufferOutOfRange f.byteIndex) := by
  simp [Framer.sendBit, hl]

theorem calls_succ {a : Symbol × Framer} {r : List Symbol × Framer} {k : Nat} (ha : f.advance p m = .ok a)
    (hr : a.2.calls p m k = .ok r) : f.calls p m (k + 1) = .ok (a.1 :: r.1, r.2) := by
  simp [Framer.calls, ha, hr]

theorem calls_of_done (hp : f.phase = .done) (k : Nat) : f.calls p m k = .ok (List.replicate k .endOfStream, f) := by
  induction k with
  | zero => rfl
  | succ k ih => exact calls_succ (advance_of_done hp) ih

end

/-- A served request means a running timer, and the framer of a running timer is not DONE (10_state R30). -/
theorem phase_ne_done_of_isrEnabled {s : State} (hinv : s.BlockInv) (hisr : s.isrEnabled = true) : s.F.phase ≠ .done := by
  obtain ⟨hinit, hpend, -, -⟩ := isrEnabled_iff.mp hisr
  have hrun : s.T.run = true := (hinv.support hinit).pendingRuns hpend
  obtain ⟨-, hrunning⟩ := (hinv.rules hinit).runningFramer hrun
  intro hdone
  simp [hdone] at hrunning

/-- Settles O6: START answers ZERO and goes to DATA at bit 0, where a framer over no bytes faults. -/
theorem startArmSendsStartBit : Obligations.StartArmSendsStartBit := by
  refine ⟨fun ev b l hev => decode_of_advanceRow (by simp [advanceRows]) hev b l, fun p m f hp => ?_⟩
  refine ⟨advance_of_start hp, fun hempty => ?_⟩
  have hbit : f.startBit.2.bitIndex.val < 8 := Nat.zero_lt_succ 7
  exact (advance_of_dataBit rfl hbit).trans (sendBit_of_length_le hbit (hempty.trans_le (Nat.zero_le _)))

/-- Settles O9: STOP before the last byte answers ONE and goes to START. -/
theorem stopNextArmSendsSecondFramingBit : Obligations.StopNextArmSendsSecondFramingBit :=
  ⟨fun _ b l hev => decode_of_advanceRow (by simp [advanceRows]) hev b l,
   fun _ _ _ hp hne => ⟨advance_of_stopNext hp hne, fun hle => lt_of_le_of_ne hle hne⟩⟩

/-- Settles O10: STOP after the last byte answers END and goes to DONE. -/
theorem stopLastArmEndsTheStream : Obligations.StopLastArmEndsTheStream :=
  ⟨fun _ b l hev => decode_of_advanceRow (by simp [advanceRows]) hev b l,
   fun _ _ _ hp hl => advance_of_stopLast hp hl⟩

/-- Settles O11: DONE answers END and keeps the framer, by induction on the number of calls; the handler's requests come
from a running timer only. -/
theorem doneArmIsIdempotent : Obligations.DoneArmIsIdempotent :=
  ⟨fun _ b l hev => decode_of_advanceRow (by simp [advanceRows]) hev b l,
   fun _ _ _ hp => ⟨advance_of_done hp, calls_of_done hp⟩,
   fun _ hinv hisr => phase_ne_done_of_isrEnabled hinv hisr⟩

end Sys2Proof.Machine
end

section
/-! PROOFS of 40_framer R92: an engaged framer answers every call with the symbol its position names (R91, 30_encoding R66)
and moves to the next position until it stands at the end of the stream. -/

namespace Sys2Proof.Machine

/-! ### The closed form by byte and slot (30_encoding R65, R66) -/

/-- The symbol of slot `r` of byte `i`: start bit, eight data bits, framing bit, and the slot that goes on or ends. -/
theorem closedSymbol_slot (b : Nat → Byte) {n i r : Nat} (hi : i < n) (hr : r < 11) :
    closedSymbol b n (11 * i + r) =
      if r = 0 then .zero
      else if r ≤ 8 then (if (b i).getLsbD (r - 1) then .one else .zero)
      else if r = 9 then .one
      else if i < n - 1 then .one
      else .endOfStream := by
  have hlt : 11 * i + r < 11 * n := by omega
  have hmod : (11 * i + r) % 11 = r := by omega
  have hdiv : (11 * i + r) / 11 = i := by omega
  simp only [closedSymbol, hlt, hmod, hdiv, if_true]

theorem closedSymbol_past_end (b : Nat → Byte) {n k : Nat} (hk : 11 * n ≤ k) : closedSymbol b n k = .endOfStream := by
  simp [closedSymbol, Nat.not_lt.mpr hk]

/-- Counting on from the end of the stream changes no symbol. -/
theorem closedSymbol_saturates (b : Nat → Byte) (n k i : Nat) :
    closedSymbol b n (min k (11 * n) + i) = closedSymbol b n (k + i) := by
  rcases le_total k (11 * n) with hk | hk
  · rw [min_eq_left hk]
  · rw [closedSymbol_past_end b (by omega), closedSymbol_past_end b (by omega)]

/-- The closed form over all its positions and `j` further ones is the whole-stream form and `j` ENDs. -/
theorem closedSymbols_eq_wire (m : Memory) (buf n j : Nat) :
    (List.range (11 * n + j)).map (closedSymbol (fun i => m.read (buf + i)) n) =
      wireSymbols (bufferBytes m buf n) ++ List.replicate j .endOfStream := by
  have hend : (closedSymbol (fun i => m.read (buf + i)) n) ∘ (11 * n + ·) = fun _ => .endOfStream :=
    funext fun i => closedSymbol_past_end _ (Nat.le_add_right _ i)
  rw [List.range_add, List.map_append, ← wireSymbols_buffer, List.map_map, hend, List.map_const', List.length_range]

/-! ### The position of an engaged framer (40_framer R91) -/

theorem over_engaged {buffer n : Nat} (hn : 1 ≤ n) : (Framer.over buffer n).Engaged where
  nonempty := hn
  start _ := hn
  data hp := by cases hp
  stop hp := by cases hp
  done hp := by cases hp

@[simp] theorem over_buf (buffer n : Nat) : (Framer.over buffer n).buf = buffer := rfl
@[simp] theorem over_length (buffer n : Nat) : (Framer.over buffer n).length = n := rfl
@[simp] theorem over_pos (buffer n : Nat) : (Framer.over buffer n).pos = 0 := rfl

theorem pos_of_done {f : Framer} (hp : f.phase = .done) : f.pos = 11 * f.length := by
  simp [Framer.pos, hp]

/-- In every other phase calls are left before the end of the stream. -/
theorem Framer.Engaged.pos_lt {f : Framer} (hf : f.Engaged) (hne : f.phase ≠ .done) : f.pos < 11 * f.length := by
  cases hp : f.phase with
  | start =>
    have hlt := hf.start hp
    simp only [Framer.pos, hp]
    omega
  | data =>
    have hlt := hf.data hp
    simp only [Framer.pos, hp]
    omega
  | stop =>
    obtain ⟨hone, hle, -⟩ := hf.stop hp
    simp only [Framer.pos, hp]
    omega
  | done => exact absurd hp hne

theorem Framer.Engaged.pos_le {f : Framer} (hf : f.Engaged) : f.pos ≤ 11 * f.length := by
  by_cases hp : f.phase = .done
  · exact (pos_of_done hp).le
  · exact (hf.pos_lt hp).le

/-- At the end of the stream every element of the framer is known. -/
theorem Framer.Engaged.eq_of_pos_end {f : Framer} (hf : f.Engaged) (hpos : f.pos = 11 * f.length) :
    f = { buf := f.buf, length := f.length, byteIndex := f.length, bitIndex := 0, phase := .done } := by
  have hp : f.phase = .done := by
    by_contra hne
    exact absurd hpos (hf.pos_lt hne).ne
  obtain ⟨hbyte, hbit⟩ := hf.done hp
  obtain ⟨buf, length, byteIndex, bitIndex, phase⟩ := f
  simp only [Framer.mk.injEq, true_and]
  exact ⟨hbyte, hbit, hp⟩

/-! ### One call over an engaged framer -/

section
variable {p : Params} {m : Memory} {f : Framer} {a : Symbol × Framer}

theorem advance_keeps_buffer (h : f.advance p m = .ok a) : a.2.buf = f.buf ∧ a.2.length = f.length := by
  rcases advance_ok h with
    ⟨-, rfl⟩ | ⟨-, -, -, -, rfl⟩ | ⟨-, -, rfl⟩ | ⟨-, -, rfl⟩ | ⟨-, -, rfl⟩ | ⟨-, rfl⟩ <;> exact ⟨rfl, rfl⟩

/-- ADVANCE faults nowhere over an engaged framer whose buffer lies in the address space (40_framer R82). -/
theorem advance_completes (hf : f.Engaged) (hspace : f.buf + f.length ≤ 2 ^ p.addrW) : ∃ a, f.advance p m = .ok a := by
  cases h : f.advance p m with
  | ok a => exact ⟨a, rfl⟩
  | error e =>
    obtain ⟨hp, -, ⟨hle, -⟩ | ⟨hlt, haddr, -⟩⟩ := advance_error h
    · exact absurd (hf.data hp) (Nat.not_lt.mpr hle)
    · rw [Framer.byteAddress] at haddr
      omega

theorem advance_engaged (hf : f.Engaged) (h : f.advance p m = .ok a) : a.2.Engaged := by
  rcases advance_ok h with
    ⟨hp, rfl⟩ | ⟨-, hp, hlt, -, rfl⟩ | ⟨hp, -, rfl⟩ | ⟨hp, hl, rfl⟩ | ⟨hp, hne, rfl⟩ | ⟨-, rfl⟩
  · exact ⟨hf.nonempty, nofun, fun _ => hf.start hp, nofun, nofun⟩
  · exact ⟨hf.nonempty, fun _ => hlt, fun _ => hlt, fun hstop => (nomatch hp.symm.trans hstop),
      fun hdone => (nomatch hp.symm.trans hdone)⟩
  · exact ⟨hf.nonempty, nofun, nofun, fun _ => ⟨Nat.succ_pos _, hf.data hp, rfl⟩, nofun⟩
  · obtain ⟨-, -, hbit⟩ := hf.stop hp
    exact ⟨hf.nonempty, nofun, nofun, nofun, fun _ => ⟨hl, hbit⟩⟩
  · obtain ⟨-, hle, -⟩ := hf.stop hp
    exact ⟨hf.nonempty, fun _ => lt_of_le_of_ne hle hne, nofun, nofun, nofun⟩
  · exact hf

/-- A call moves the position on by one, and DONE stays at the end (40_framer R91). -/
theorem advance_pos (hf : f.Engaged) (h : f.advance p m = .ok a) : a.2.pos = min (f.pos + 1) (11 * f.length) := by
  rcases advance_ok h with
    ⟨hp, rfl⟩ | ⟨-, hp, hlt, -, rfl⟩ | ⟨hp, h8, rfl⟩ | ⟨hp, hl, rfl⟩ | ⟨hp, -, rfl⟩ | ⟨hp, rfl⟩
  · have hlt := hf.start hp
    simp only [Framer.startBit, Framer.pos, hp, Fin.val_zero]
    omega
  · simp only [nextBit, Framer.pos, hp]
    omega
  · have hlt := hf.data hp
    have hbit : f.bitIndex.val = 8 := congrArg Fin.val h8
    simp only [Framer.endByte, Framer.pos, hp]
    omega
  · have hn := hf.nonempty
    simp only [Framer.endStream, Framer.pos, hp]
    omega
  · obtain ⟨hone, hle, -⟩ := hf.stop hp
    simp only [Framer.nextByte, Framer.pos, hp]
    omega
  · simp only [Framer.stayDone, pos_of_done hp]
    omega

/-- A call answers the closed form's symbol at the framer's position (40_framer R91). -/
theorem advance_symbol (hf : f.Engaged) (h : f.advance p m = .ok a) :
    a.1 = closedSymbol (fun j => m.read (f.buf + j)) f.length f.pos := by
  rcases advance_ok h with
    ⟨hp, rfl⟩ | ⟨h8, hp, hlt, -, rfl⟩ | ⟨hp, h8, rfl⟩ | ⟨hp, hl, rfl⟩ | ⟨hp, hne, rfl⟩ | ⟨hp, rfl⟩
  · have hpos : f.pos = 11 * f.byteIndex + 0 := by simp [Framer.pos, hp]
    rw [hpos, closedSymbol_slot _ (hf.start hp) (by omega)]
    rfl
  · have hpos : f.pos = 11 * f.byteIndex + (f.bitIndex.val + 1) := by simp [Framer.pos, hp]; omega
    rw [hpos, closedSymbol_slot _ hlt (by omega), if_neg (by omega), if_pos (by omega)]
    exact bitSymbol_dataBit _ h8
  · have hpos : f.pos = 11 * f.byteIndex + 9 := by simp [Framer.pos, hp, h8]
    rw [hpos, closedSymbol_slot _ (hf.data hp) (by omega)]
    rfl
  · have hn := hf.nonempty
    have hpos : f.pos = 11 * (f.byteIndex - 1) + 10 := by simp [Framer.pos, hp]; omega
    rw [hpos, closedSymbol_slot _ (by omega) (by omega)]
    simp [hl, Framer.endStream]
  · obtain ⟨hone, hle, -⟩ := hf.stop hp
    have hpos : f.pos = 11 * (f.byteIndex - 1) + 10 := by simp [Framer.pos, hp]; omega
    have hnext : f.byteIndex - 1 < f.length - 1 := by omega
    rw [hpos, closedSymbol_slot _ (by omega) (by omega)]
    simp [hnext, Framer.nextByte]
  · rw [pos_of_done hp, closedSymbol_past_end _ le_rfl]
    rfl

end

/-! ### Any number of calls -/

/-- `k` calls answer the closed form's next `k` symbols, by induction on `k`: each call keeps the framer engaged over the
same buffer, one position further on. -/
theorem calls_of_engaged {p : Params} {m : Memory} {f : Framer} (hf : f.Engaged) (hspace : f.buf + f.length ≤ 2 ^ p.addrW)
    (k : Nat) :
    ∃ g, f.calls p m k =
        .ok ((List.range k).map (fun i => closedSymbol (fun j => m.read (f.buf + j)) f.length (f.pos + i)), g) ∧
      g.Engaged ∧ g.buf = f.buf ∧ g.length = f.length ∧ g.pos = min (f.pos + k) (11 * f.length) := by
  induction k generalizing f with
  | zero => exact ⟨f, rfl, hf, rfl, rfl, (min_eq_left hf.pos_le).symm⟩
  | succ k ih =>
    obtain ⟨a, ha⟩ := advance_completes (m := m) hf hspace
    obtain ⟨hbuf, hlen⟩ := advance_keeps_buffer ha
    have hpos := advance_pos hf ha
    obtain ⟨g, hcalls, hg, hgbuf, hglen, hgpos⟩ := ih (advance_engaged hf ha) (by rw [hbuf, hlen]; exact hspace)
    refine ⟨g, ?_, hg, hgbuf.trans hbuf, hglen.trans hlen, by omega⟩
    rw [calls_succ ha hcalls, advance_symbol hf ha, hbuf, hlen, hpos, List.range_succ_eq_map, List.map_cons, List.map_map]
    simp only [closedSymbol_saturates]
    simp [Function.comp_def, Nat.add_assoc, Nat.add_comm 1]

/-- Settles O19: `11n + j` calls from position 0 answer the whole stream and `j` ENDs, and leave the framer at the end of
the stream. -/
theorem framerEmitsTheWireStream : Obligations.FramerEmitsTheWireStream := by
  intro p m buffer n j hn hspace
  obtain ⟨g, hcalls, hg, hbuf, hlen, hpos⟩ :=
    calls_of_engaged (m := m) (over_engaged (buffer := buffer) hn) hspace (11 * n + j)
  simp only [over_buf, over_length, over_pos, zero_add] at hcalls hbuf hlen hpos
  have hend : g.pos = 11 * g.length := by rw [hpos, hlen, min_eq_right (Nat.le_add_right _ j)]
  rw [hcalls, closedSymbols_eq_wire, hg.eq_of_pos_end hend, hbuf, hlen]

end Sys2Proof.Machine
end

section
/-! PROOFS of 41_controller R107: what WRITE does in Ready once its length operand is resolved, and the empty write. -/

namespace Sys2Proof.Machine

section
variable {s : State} {buffer n : Nat} {len : Option Nat}

theorem freset_of_length {p : Params} {m : Memory} (h : resolveLength p m buffer len = .ok n) :
    freset p m buffer len = .ok (Framer.over buffer n) := by
  simp [freset, h]

/-- In Ready, WRITE with a resolved length engages the framer FRESET makes over it (41_controller R101). -/
theorem enterWrite_of_ready (hready : s.mc = .ready) (h : resolveLength s.params s.mem buffer len = .ok n) :
    s.enterWrite buffer len = .next (s.engage (Framer.over buffer n)) := by
  simp [State.enterWrite, hready, freset_of_length h]

/-- Over no bytes only the framer is written: the timer is not started and `busy` is not raised. -/
theorem engage_of_empty {f : Framer} (hempty : f.length = 0) : s.engage f = s.setFramer f :=
  if_pos hempty

/-- In Ready, WRITE with a length resolved to 0 does what FRESET does and nothing else. -/
theorem enterWrite_of_empty (hready : s.mc = .ready) (h : resolveLength s.params s.mem buffer len = .ok 0) :
    s.enterWrite buffer len = .next (s.setFramer (Framer.over buffer 0)) := by
  rw [enterWrite_of_ready hready h, engage_of_empty (over_length buffer 0)]

end

/-- Settles O23: both forms of the length operand resolve to 0, and the empty write is FRESET's alone. -/
theorem emptyWriteIsASilentNoOp : Obligations.EmptyWriteIsASilentNoOp := by
  intro s buffer hready
  exact ⟨enterWrite_of_empty (len := some 0) hready rfl,
    fun hmeasured => enterWrite_of_empty (len := none) hready hmeasured⟩

end Sys2Proof.Machine
end

section
/-! PROOFS of 30_encoding R69 to R71: the bits of an encoding are read back, the words that fit no row are the reserved
ones, and the framer's own word names the arm of ADVANCE whose condition holds. -/

namespace Sys2Proof

/-! ### The bits of an encoding -/

/-- What Laws.Encoding says of each operation holds of every operation. -/
theorem encoding_statement : ∀ i : Instr, Laws.Encoding.Statement i
  | .init => Laws.Encoding.init
  | .writeLen buffer len => Laws.Encoding.writeLen buffer len
  | .writeMeasure buffer => Laws.Encoding.writeMeasure buffer
  | .poll => Laws.Encoding.poll
  | .start => Laws.Encoding.start
  | .stop => Laws.Encoding.stop
  | .tcycle => Laws.Encoding.tcycle
  | .isr => Laws.Encoding.isr
  | .advStart => Laws.Encoding.advStart
  | .advDataBit => Laws.Encoding.advDataBit
  | .advDataEnd => Laws.Encoding.advDataEnd
  | .advStopNext => Laws.Encoding.advStopNext
  | .advStopLast => Laws.Encoding.advStopLast
  | .advDone => Laws.Encoding.advDone
  | .fresetLen buffer len => Laws.Encoding.fresetLen buffer len
  | .fresetMeasure buffer => Laws.Encoding.fresetMeasure buffer
  | .measure buffer => Laws.Encoding.measure buffer

/-- The two lanes are read back from an event's number where they fit their widths: the word takes the low 8 bits, and a
division and a remainder by `2^ADDR_W` part the lanes. -/
theorem Event.ofBits_toBits {p : Params} {e : Event} (hbuf : e.buffer < 2 ^ p.addrW) (hlen : e.len < 2 ^ p.lenW) :
    Event.ofBits p (e.toBits p) = e := by
  have hword : BitVec.ofNat 8 (e.toBits p) = e.ev := by
    apply BitVec.eq_of_toNat_eq
    rw [BitVec.toNat_ofNat, Event.toBits, Nat.add_mul_mod_self_left, Nat.mod_eq_of_lt e.ev.isLt]
  have hlanes : e.toBits p / 2 ^ 8 = e.buffer + 2 ^ p.addrW * e.len := by
    rw [Event.toBits, Nat.add_mul_div_left _ _ (by decide), Nat.div_eq_of_lt e.ev.isLt, Nat.zero_add]
  have hlow : (e.buffer + 2 ^ p.addrW * e.len) % 2 ^ p.addrW = e.buffer := by
    rw [Nat.add_mul_mod_self_left, Nat.mod_eq_of_lt hbuf]
  have hhigh : (e.buffer + 2 ^ p.addrW * e.len) / 2 ^ p.addrW % 2 ^ p.lenW = e.len := by
    rw [Nat.add_mul_div_left _ _ (by positivity), Nat.div_eq_of_lt hbuf, Nat.zero_add, Nat.mod_eq_of_lt hlen]
  rw [Event.ofBits, hword, hlanes, hlow, hhigh]

/-- A digit below `x` in front of a number below `y` makes a number below `x * y`. -/
theorem add_mul_lt {x y a b : Nat} (ha : a < x) (hb : b < y) : a + x * b < x * y :=
  calc a + x * b < x + x * b := Nat.add_lt_add_right ha _
    _ = x * (b + 1) := by ring
    _ ≤ x * y := Nat.mul_le_mul_left x hb

theorem Event.toBits_lt {p : Params} {e : Event} (hbuf : e.buffer < 2 ^ p.addrW) (hlen : e.len < 2 ^ p.lenW) :
    e.toBits p < 2 ^ (8 + p.addrW + p.lenW) := by
  rw [Nat.add_assoc, Nat.pow_add, Nat.pow_add]
  exact add_mul_lt e.ev.isLt (add_mul_lt hbuf hlen)

/-- Settles O2: the lanes of a well-formed operation fit their widths, so its event is read back, and the event
decodes to the operation. -/
theorem encodedBitsDecodeBack : Obligations.EncodedBitsDecodeBack := by
  intro p i hw
  obtain ⟨hdecode, -, -, -, hlanes⟩ := encoding_statement i
  obtain ⟨hbuf, hlen⟩ := hlanes p hw
  exact ⟨by rw [Event.ofBits_toBits hbuf hlen, hdecode], Event.toBits_lt hbuf hlen⟩

/-! ### Rows and reserved words -/

/-- Settles O1: the first row that each word fits is its operation's, whatever stands on the lanes. -/
theorem decodesWordsOfEveryRow : Obligations.DecodesWordsOfEveryRow := by
  intro b l
  simp [decode, rows, contextRows, advanceRows, framerRows, Row.matches]

/-- The words the table of 30_encoding R69 lists under an operation code that is not reserved. -/
def listedWord (ev : Byte) : Bool :=
  opOf ev == 0x8#4 || subOf ev == 0b0000#4 || ((opOf ev == 0x2#4 || opOf ev == 0x9#4) && subOf ev == 0b1000#4)

/-- The operation codes 30_encoding R71 reserves. -/
def reservedCode (op : BitVec 4) : Bool :=
  op == 0x0#4 || op == 0xB#4 || op == 0xC#4 || op == 0xD#4 || op == 0xE#4 || op == 0xF#4

/-- Exactly the listed words of a code that is not reserved fit a row, checked on all 256. -/
theorem rows_any_matches (ev : Byte) :
    rows.any (fun r => r.matches ev) = (!reservedCode (opOf ev) && listedWord ev) := by
  revert ev
  exact forall_byte (by decide +kernel)

/-- The codes from 0xB on are the last five. -/
theorem rejectOf_eq (ev : Byte) :
    rejectOf ev = if reservedCode (opOf ev) then .reservedOp (opOf ev) else .reservedSub (opOf ev) (subOf ev) := by
  have hcode : ∀ op : BitVec 4, (op = 0x0#4 ∨ 0xB#4 ≤ op) ↔ reservedCode op = true := by decide
  simp only [rejectOf, hcode]

theorem decode_of_no_row {e : Event} (h : rows.any (fun r => r.matches e.ev) = false) :
    decode e = .error (rejectOf e.ev) := by
  have hfind : rows.find? (fun r => r.matches e.ev) = none := by simpa using h
  simp [decode, hfind]

theorem decode_of_some_row {e : Event} (h : rows.any (fun r => r.matches e.ev) = true) : ∃ i, decode e = .ok i := by
  obtain ⟨r, hr, hm⟩ := List.any_eq_true.mp h
  exact ⟨_, decode_of_row hr hm e.buffer e.len⟩

end Sys2Proof

namespace Sys2Proof.Machine

/-- An offered event that names no operation is refused by name (30_encoding R71). -/
theorem step_of_undecodable {s : State} {e : Event} {r : Reject} (hd : decode e = .error r)
    (hisr : s.isrEnabled = false) (ho : s.offered = some e) : step s = .refused (.undecodable r) := by
  apply step_of_stop
  rw [fetch_offered hisr ho]
  simp [State.runEvent, hd]

/-- Settles O3: whether a word fits a row, and the name it is refused under, are decided by its two halves. -/
theorem reservedWordsRefusedByName : Obligations.ReservedWordsRefusedByName := by
  refine ⟨fun e => ?_, fun s e r => step_of_undecodable, fun y => by cases y <;> decide⟩
  have hreserved : (opOf e.ev = 0x0#4 ∨ opOf e.ev = 0xB#4 ∨ opOf e.ev = 0xC#4 ∨ opOf e.ev = 0xD#4 ∨ opOf e.ev = 0xE#4 ∨
      opOf e.ev = 0xF#4) ↔ reservedCode (opOf e.ev) = true := by
    simp [reservedCode, or_assoc]
  have hlisted : (opOf e.ev = 0x8#4 ∨ subOf e.ev = 0b0000#4 ∨
      ((opOf e.ev = 0x2#4 ∨ opOf e.ev = 0x9#4) ∧ subOf e.ev = 0b1000#4)) ↔ listedWord e.ev = true := by
    simp [listedWord, or_assoc]
  have hrows := rows_any_matches e.ev
  refine ⟨fun hr => ?_, fun hr hl => ?_, fun hr hl => ?_⟩
  · have hr := hreserved.mp hr
    rw [decode_of_no_row (by simp [hrows, hr]), rejectOf_eq, if_pos hr]
    rfl
  · have hr := mt hreserved.mpr hr
    have hl := mt hlisted.mpr hl
    rw [decode_of_no_row (by simp [hrows, hl]), rejectOf_eq, if_neg hr]
    rfl
  · have hr := mt hreserved.mpr hr
    have hl := hlisted.mp hl
    exact decode_of_some_row (by simp [hrows, hl, hr])

/-! ### The arm of ADVANCE -/

/-- The arm of ADVANCE whose "Enabled when" holds (40_framer R83 to R88). -/
def Framer.arm (f : Framer) : Instr :=
  match f.phase with
  | .start => .advStart
  | .data => if f.bitIndex.val = 8 then .advDataEnd else .advDataBit
  | .stop => if f.byteIndex = f.length then .advStopLast else .advStopNext
  | .done => .advDone

section
variable {f : Framer}

theorem arm_eq_advStart : f.arm = .advStart ↔ f.phase = .start := by
  cases hp : f.phase <;> simp [Framer.arm, hp, ite_eq_iff]

theorem arm_eq_advDataBit : f.arm = .advDataBit ↔ f.phase = .data ∧ f.bitIndex.val < 8 := by
  have hbit : f.bitIndex.val < 8 ↔ ¬ f.bitIndex.val = 8 := by omega
  cases hp : f.phase <;> simp [Framer.arm, hp, ite_eq_iff, hbit]

theorem arm_eq_advDataEnd : f.arm = .advDataEnd ↔ f.phase = .data ∧ f.bitIndex.val = 8 := by
  cases hp : f.phase <;> simp [Framer.arm, hp, ite_eq_iff]

theorem arm_eq_advStopNext : f.arm = .advStopNext ↔ f.phase = .stop ∧ f.byteIndex ≠ f.length := by
  cases hp : f.phase <;> simp [Framer.arm, hp, ite_eq_iff]

theorem arm_eq_advStopLast : f.arm = .advStopLast ↔ f.phase = .stop ∧ f.byteIndex = f.length := by
  cases hp : f.phase <;> simp [Framer.arm, hp, ite_eq_iff]

theorem arm_eq_advDone : f.arm = .advDone ↔ f.phase = .done := by
  cases hp : f.phase <;> simp [Framer.arm, hp, ite_eq_iff]

theorem b8_eq (f : Framer) : f.b8 = if f.bitIndex.val = 8 then 1#1 else 0#1 := by
  have hbit : 8 ≤ f.bitIndex.val ↔ f.bitIndex.val = 8 := by omega
  simp only [Framer.b8, hbit]

/-- The pattern that the two selector bits `b8` and `last` complete fits the row of the arm they select. -/
theorem decode_advanceWord (f : Framer) (b l : Nat) : decode ⟨f.advanceWord, b, l⟩ = .ok f.arm := by
  have fits : ∀ {mask word : Byte} {i : Instr}, f.arm = i → ⟨mask, word, fun _ _ => i⟩ ∈ advanceRows →
      (0x8#4 ++ (f.phase.code ++ f.b8 ++ f.last)) &&& mask = word → decode ⟨f.advanceWord, b, l⟩ = .ok f.arm := by
    rintro mask word i rfl hr hword
    exact decode_of_advanceRow hr hword b l
  cases hp : f.phase with
  | start =>
    refine fits (arm_eq_advStart.mpr hp) (.head _) ?_
    rw [hp]
    generalize f.b8 = x, f.last = y
    revert x y
    decide
  | data =>
    by_cases h8 : f.bitIndex.val = 8
    · refine fits (arm_eq_advDataEnd.mpr ⟨hp, h8⟩) (.tail _ (.tail _ (.head _))) ?_
      rw [hp, b8_eq, if_pos h8]
      generalize f.last = y
      revert y
      decide
    · refine fits (arm_eq_advDataBit.mpr ⟨hp, by omega⟩) (.tail _ (.head _)) ?_
      rw [hp, b8_eq, if_neg h8]
      generalize f.last = y
      revert y
      decide
  | stop =>
    by_cases hl : f.byteIndex = f.length
    · refine fits (arm_eq_advStopLast.mpr ⟨hp, hl⟩) (.tail _ (.tail _ (.tail _ (.tail _ (.head _))))) ?_
      rw [hp, Framer.last, if_pos hl]
      generalize f.b8 = x
      revert x
      decide
    · refine fits (arm_eq_advStopNext.mpr ⟨hp, hl⟩) (.tail _ (.tail _ (.tail _ (.head _)))) ?_
      rw [hp, Framer.last, if_neg hl]
      generalize f.b8 = x
      revert x
      decide
  | done =>
    refine fits (arm_eq_advDone.mpr hp) (.tail _ (.tail _ (.tail _ (.tail _ (.tail _ (.head _)))))) ?_
    rw [hp]
    generalize f.b8 = x, f.last = y
    revert x y
    decide

end

/-- The bits of the framer's word, field by field. -/
theorem selector_bits (c : BitVec 2) (b8 last : BitVec 1) :
    (0x8#4 ++ (c ++ b8 ++ last)).extractLsb' 4 4 = 0x8#4 ∧ (0x8#4 ++ (c ++ b8 ++ last)).extractLsb' 2 2 = c ∧
      (0x8#4 ++ (c ++ b8 ++ last)).getLsbD 1 = b8.getLsbD 0 ∧
      (0x8#4 ++ (c ++ b8 ++ last)).getLsbD 0 = last.getLsbD 0 := by
  revert c b8 last
  decide

/-- Settles O4: the word's bits are the selector's fields, and it decodes to the arm whose condition holds. -/
theorem selectorNamesTheArm : Obligations.SelectorNamesTheArm := by
  refine ⟨fun f b l => ?_, by decide⟩
  obtain ⟨hop, hphase, hb8, hlast⟩ := selector_bits f.phase.code f.b8 f.last
  have hone : ∀ c : Prop, ∀ [Decidable c], (if c then 1#1 else 0#1).getLsbD 0 = decide c := by
    intro c _
    by_cases hc : c <;> simp [hc]
  refine ⟨hop, hphase, hb8.trans ?_, hlast.trans (hone _), fun hp => ?_, fun hp h8 => ?_, fun hp h8 => ?_,
    fun hp hne => ?_, fun hp hl => ?_, fun hp => ?_⟩
  · rw [b8_eq, hone]
  · rw [decode_advanceWord, arm_eq_advStart.mpr hp]
  · rw [decode_advanceWord, arm_eq_advDataBit.mpr ⟨hp, h8⟩]
  · rw [decode_advanceWord, arm_eq_advDataEnd.mpr ⟨hp, h8⟩]
  · rw [decode_advanceWord, arm_eq_advStopNext.mpr ⟨hp, hne⟩]
  · rw [decode_advanceWord, arm_eq_advStopLast.mpr ⟨hp, hl⟩]
  · rw [decode_advanceWord, arm_eq_advDone.mpr hp]

end Sys2Proof.Machine
end

section
/-! PROOFS of what every operation does, said once: the six arms of ADVANCE as one, and for `exec` everything that
makes it answer a next state, a fault or a refusal. -/

namespace Sys2Proof.Machine

/-! ### The arms of ADVANCE as one operation -/

/-- The six arms of ADVANCE (30_encoding R70). -/
def arms : List Instr := [.advStart, .advDataBit, .advDataEnd, .advStopNext, .advStopLast, .advDone]

theorem arm_mem_arms (f : Framer) : f.arm ∈ arms := by
  unfold Framer.arm
  split
  · decide
  · split <;> decide
  · split <;> decide
  · decide

/-- ADVANCE performed by itself: the symbol becomes the result (40_framer R82; log 11). -/
def State.advanceAlone (s : State) : Host.Outcome State Fault Refusal :=
  match s.F.advance s.params s.mem with
  | .ok a => .next (s.returnSymbol a)
  | .error e => .fault e

theorem advanceAlone_of_ok {s : State} {a : Symbol × Framer} (h : s.F.advance s.params s.mem = .ok a) :
    s.advanceAlone = .next (s.returnSymbol a) := by
  simp [State.advanceAlone, h]

theorem advanceAlone_of_error {s : State} {e : Fault} (h : s.F.advance s.params s.mem = .error e) :
    s.advanceAlone = .fault e := by
  simp [State.advanceAlone, h]

/-- An arm that answers what ADVANCE answers, under the condition that makes it the framer's, is ADVANCE under that
guard. -/
theorem guarded_arm {s : State} {i : Instr} {c : Prop} [Decidable c] {a : Symbol × Framer}
    {o : Host.Outcome State Fault Refusal} (harm : s.F.arm = i ↔ c) (ha : c → s.F.advance s.params s.mem = .ok a) :
    (if c then .next (s.returnSymbol a) else o) = if s.F.arm = i then s.advanceAlone else o := by
  simp only [harm]
  exact if_ctx_congr Iff.rfl (fun hc => (advanceAlone_of_ok (ha hc)).symm) fun _ => rfl

/-- Each arm is ADVANCE guarded by its "Enabled when" (40_framer R82 to R88). -/
theorem exec_arm {i : Instr} (hi : i ∈ arms) (s : State) :
    exec i s = s.afterInit i.mnemonic
      (if s.F.arm = i then s.advanceAlone else .refused (.notEnabled i.mnemonic)) := by
  simp only [arms, List.mem_cons, List.not_mem_nil, or_false] at hi
  rcases hi with rfl | rfl | rfl | rfl | rfl | rfl <;> refine congrArg (s.afterInit _) ?_
  · exact guarded_arm arm_eq_advStart advance_of_start
  · simp only [arm_eq_advDataBit]
    by_cases hp : s.F.phase = .data
    · by_cases h8 : s.F.bitIndex.val < 8
      · simp only [hp, h8, State.advanceAlone, advance_of_dataBit hp h8]
        rfl
      · simp [hp, h8, Instr.mnemonic]
    · simp [hp, Instr.mnemonic]
  · have hbit : s.F.bitIndex = 8 ↔ s.F.bitIndex.val = 8 := Fin.ext_iff
    exact guarded_arm (arm_eq_advDataEnd.trans (and_congr_right' hbit.symm))
      fun hc => advance_of_dataEnd hc.1 (hbit.mp hc.2)
  · exact guarded_arm arm_eq_advStopNext fun hc => advance_of_stopNext hc.1 hc.2
  · exact guarded_arm arm_eq_advStopLast fun hc => advance_of_stopLast hc.1 hc.2
  · exact guarded_arm arm_eq_advDone advance_of_done

section
variable {s t : State} {i : Instr} {f : Fault} {r : Refusal}

/-- The arm that is enabled does what ADVANCE does. -/
theorem exec_enabled_arm (hm : s.mc ≠ .powerOn) (hi : s.F.arm = i) : exec i s = s.advanceAlone := by
  rw [exec_arm (hi ▸ arm_mem_arms s.F), afterInit_of hm, if_pos hi]

theorem exec_arm_next (hi : i ∈ arms) (h : exec i s = .next t) :
    s.mc ≠ .powerOn ∧ s.F.arm = i ∧ ∃ a, s.F.advance s.params s.mem = .ok a ∧ t = s.returnSymbol a := by
  rw [exec_arm hi] at h
  obtain ⟨hm, h⟩ := afterInit_next h
  split at h
  · next harm =>
    cases ha : s.F.advance s.params s.mem with
    | ok a =>
      rw [advanceAlone_of_ok ha] at h
      exact ⟨hm, harm, a, rfl, (Host.Outcome.next.inj h).symm⟩
    | error e =>
      rw [advanceAlone_of_error ha] at h
      cases h
  · cases h

theorem exec_arm_fault (hi : i ∈ arms) (h : exec i s = .fault f) :
    s.mc ≠ .powerOn ∧ s.F.arm = i ∧ s.F.advance s.params s.mem = .error f := by
  rw [exec_arm hi] at h
  obtain ⟨hm, h⟩ := afterInit_fault h
  split at h
  · next harm =>
    cases ha : s.F.advance s.params s.mem with
    | ok a =>
      rw [advanceAlone_of_ok ha] at h
      cases h
    | error e =>
      rw [advanceAlone_of_error ha] at h
      exact ⟨hm, harm, congrArg _ (Host.Outcome.fault.inj h)⟩
  · cases h

theorem exec_arm_refused (hi : i ∈ arms) :
    exec i s = .refused r ↔ r = .notEnabled i.mnemonic ∧ (s.F.arm ≠ i ∨ s.mc = .powerOn) := by
  rw [exec_arm hi]
  by_cases hm : s.mc = .powerOn
  · simp [afterInit_powerOn hm, hm, eq_comm]
  · by_cases harm : s.F.arm = i
    · cases ha : s.F.advance s.params s.mem <;> simp [afterInit_of hm, hm, harm, State.advanceAlone, ha]
    · simp [afterInit_of hm, hm, harm, eq_comm]

/-! ### Completion -/

/-- Everything an operation can do that answers a next state, with the conditions under which it does: one case per
rule of 40_framer, 41_controller and 42_timer_handler. -/
inductive State.Completes (s : State) : Instr → State → Prop
  | init (hm : s.mc = .powerOn) : s.Completes .init s.initialise
  | writeLen (buffer n : Nat) (hm : s.mc = .ready) : s.Completes (.writeLen buffer n) (s.engage (Framer.over buffer n))
  | writeMeasure (buffer n : Nat) (hm : s.mc = .ready) (hn : measureBuffer s.params s.mem buffer = .ok n) :
    s.Completes (.writeMeasure buffer) (s.engage (Framer.over buffer n))
  | pollBusy (hm : s.mc = .waiting) (hb : s.C.busy = true) : s.Completes .poll s
  | pollDone (hm : s.mc = .waiting) (hb : s.C.busy = false) : s.Completes .poll (s.setMc .ready)
  | start (hm : s.mc ≠ .powerOn) : s.Completes .start s.startTimer
  | stop (hm : s.mc ≠ .powerOn) : s.Completes .stop s.stopTransmission
  | tcycle (u : Timer) (hm : s.mc ≠ .powerOn) (hisr : s.isrEnabled = false) (hu : s.T.cycle = .ok u) :
    s.Completes .tcycle (s.setTimer u)
  | isr (a : Symbol × Framer) (hisr : s.isrEnabled = true) (ha : s.F.advance s.params s.mem = .ok a) :
    s.Completes .isr (s.clearPending.handle a)
  | arm {i : Instr} (a : Symbol × Framer) (hm : s.mc ≠ .powerOn) (hi : s.F.arm = i)
    (ha : s.F.advance s.params s.mem = .ok a) : s.Completes i (s.returnSymbol a)
  | fresetLen (buffer n : Nat) (hm : s.mc ≠ .powerOn) :
    s.Completes (.fresetLen buffer n) (s.setFramer (Framer.over buffer n))
  | fresetMeasure (buffer n : Nat) (hm : s.mc ≠ .powerOn) (hn : measureBuffer s.params s.mem buffer = .ok n) :
    s.Completes (.fresetMeasure buffer) (s.setFramer (Framer.over buffer n))
  | measure (buffer n : Nat) (hm : s.mc ≠ .powerOn) (hn : measureBuffer s.params s.mem buffer = .ok n) :
    s.Completes (.measure buffer) (s.setResult (.count n))

theorem exec_next (h : exec i s = .next t) : s.Completes i t := by
  have arm (hi : i ∈ arms) : s.Completes i t := by
    obtain ⟨hm, harm, a, ha, rfl⟩ := exec_arm_next hi h
    exact .arm a hm harm ha
  cases i with
  | init =>
    obtain ⟨hm, rfl⟩ := execInit_next h
    exact .init hm
  | writeLen buffer n =>
    obtain ⟨hm, k, hk, rfl⟩ := enterWrite_next (len := some n) h
    cases hk
    exact .writeLen buffer n hm
  | writeMeasure buffer =>
    obtain ⟨hm, n, hn, rfl⟩ := enterWrite_next (len := none) h
    exact .writeMeasure buffer n hm hn
  | poll =>
    obtain ⟨hm, ⟨hb, rfl⟩ | ⟨hb, rfl⟩⟩ := execPoll_next h
    · exact .pollBusy hm hb
    · exact .pollDone hm hb
  | start =>
    obtain ⟨hm, rfl⟩ := execStart_next h
    exact .start hm
  | stop =>
    obtain ⟨hm, rfl⟩ := execStop_next h
    exact .stop hm
  | tcycle =>
    obtain ⟨hm, hisr, u, hu, rfl⟩ := execTcycle_next h
    exact .tcycle u hm hisr hu
  | isr =>
    obtain ⟨hisr, a, ha, rfl⟩ := execIsr_next h
    exact .isr a hisr ha
  | advStart => exact arm (by decide)
  | advDataBit => exact arm (by decide)
  | advDataEnd => exact arm (by decide)
  | advStopNext => exact arm (by decide)
  | advStopLast => exact arm (by decide)
  | advDone => exact arm (by decide)
  | fresetLen buffer n =>
    obtain ⟨hm, rfl⟩ := execFresetLen_next h
    exact .fresetLen buffer n hm
  | fresetMeasure buffer =>
    obtain ⟨hm, n, hn, rfl⟩ := execFresetMeasure_next h
    exact .fresetMeasure buffer n hm hn
  | measure buffer =>
    obtain ⟨hm, n, hn, rfl⟩ := execMeasure_next h
    exact .measure buffer n hm hn

theorem State.Completes.exec (h : s.Completes i t) : exec i s = .next t := by
  cases h with
  | init hm => simp [Machine.exec, execInit, hm]
  | writeLen buffer n hm => exact enterWrite_of_ready (len := some n) hm rfl
  | writeMeasure buffer n hm hn => exact enterWrite_of_ready (len := none) hm hn
  | pollBusy hm hb => simp [Machine.exec, execPoll, hm, State.readBusy, hb]
  | pollDone hm hb => simp [Machine.exec, execPoll, hm, State.readBusy, hb]
  | start hm => exact afterInit_of hm
  | stop hm => exact afterInit_of hm
  | tcycle u hm hisr hu => simp [Machine.exec, execTcycle, hm, hisr, hu]
  | isr a hisr ha => simp [Machine.exec, execIsr, hisr, ha, State.enterHandler, State.returnFromHandler]
  | arm a hm hi ha => rw [exec_enabled_arm hm hi, advanceAlone_of_ok ha]
  | fresetLen buffer n hm => exact afterInit_of hm
  | fresetMeasure buffer n hm hn =>
    refine (afterInit_of hm).trans ?_
    simp [State.resetFramer, freset_of_length (len := none) hn]
  | measure buffer n hm hn =>
    refine (afterInit_of hm).trans ?_
    simp [hn]

/-! ### Faults -/

/-- Everything that makes an operation fault (60_exceptions R141 to R147). -/
inductive State.Faults (s : State) : Instr → Fault → Prop
  | doubleInit (hm : s.mc ≠ .powerOn) : s.Faults .init .doubleInit
  | writeLenEarly (buffer n : Nat) (hm : s.mc = .powerOn) : s.Faults (.writeLen buffer n) .useBeforeInit
  | writeMeasureEarly (buffer : Nat) (hm : s.mc = .powerOn) : s.Faults (.writeMeasure buffer) .useBeforeInit
  | writeLenAgain (buffer n : Nat) (hm : s.mc = .waiting) : s.Faults (.writeLen buffer n) .reentrantWrite
  | writeMeasureAgain (buffer : Nat) (hm : s.mc = .waiting) : s.Faults (.writeMeasure buffer) .reentrantWrite
  | writeUnterminated (buffer : Nat) (hm : s.mc = .ready)
    (hn : measureBuffer s.params s.mem buffer = .error (.unterminated buffer)) :
    s.Faults (.writeMeasure buffer) (.unterminated buffer)
  | overrun (e : Fault) (hm : s.mc ≠ .powerOn) (hisr : s.isrEnabled = false) (hu : s.T.cycle = .error e) :
    s.Faults .tcycle e
  | isr (e : Fault) (hisr : s.isrEnabled = true) (ha : s.F.advance s.params s.mem = .error e) : s.Faults .isr e
  | arm {i : Instr} (e : Fault) (hm : s.mc ≠ .powerOn) (hi : s.F.arm = i) (ha : s.F.advance s.params s.mem = .error e) :
    s.Faults i e
  | fresetUnterminated (buffer : Nat) (hm : s.mc ≠ .powerOn)
    (hn : measureBuffer s.params s.mem buffer = .error (.unterminated buffer)) :
    s.Faults (.fresetMeasure buffer) (.unterminated buffer)
  | measureUnterminated (buffer : Nat) (hm : s.mc ≠ .powerOn)
    (hn : measureBuffer s.params s.mem buffer = .error (.unterminated buffer)) :
    s.Faults (.measure buffer) (.unterminated buffer)

theorem measureBuffer_error {p : Params} {m : Memory} {buffer : Nat} (h : measureBuffer p m buffer = .error f) :
    f = .unterminated buffer := by
  obtain ⟨n, hn, -⟩ | ⟨hn, -⟩ := measureBuffer_cases p m buffer
  · rw [hn] at h
    cases h
  · rw [hn] at h
    exact (Except.error.inj h).symm

theorem freset_of_unterminated {p : Params} {m : Memory} {buffer : Nat}
    (h : measureBuffer p m buffer = .error (.unterminated buffer)) :
    freset p m buffer none = .error (.unterminated buffer) := by
  simp [freset, resolveLength, h]

theorem freset_fault {p : Params} {m : Memory} {buffer : Nat} {len : Option Nat}
    (h : freset p m buffer len = .error f) :
    len = none ∧ f = .unterminated buffer ∧ measureBuffer p m buffer = .error (.unterminated buffer) := by
  obtain ⟨rfl, rfl⟩ := freset_error h
  refine ⟨rfl, rfl, ?_⟩
  unfold freset at h
  split at h
  · cases h
  · next e he => exact he.trans (congrArg _ (Except.error.inj h))

theorem enterWrite_fault {buffer : Nat} {len : Option Nat} (h : s.enterWrite buffer len = .fault f) :
    (s.mc = .powerOn ∧ f = .useBeforeInit) ∨ (s.mc = .waiting ∧ f = .reentrantWrite) ∨
      (s.mc = .ready ∧ freset s.params s.mem buffer len = .error f) := by
  unfold State.enterWrite at h
  split at h
  · next hm => exact .inl ⟨hm, (Host.Outcome.fault.inj h).symm⟩
  · next hm => exact .inr (.inl ⟨hm, (Host.Outcome.fault.inj h).symm⟩)
  · next hm =>
    split at h
    · cases h
    · next e he => exact .inr (.inr ⟨hm, he.trans (congrArg _ (Host.Outcome.fault.inj h))⟩)

theorem execInit_fault (h : execInit s = .fault f) : s.mc ≠ .powerOn ∧ f = .doubleInit := by
  cases hm : s.mc <;> simp_all [execInit]

theorem execPoll_not_fault : execPoll s ≠ .fault f := by
  unfold execPoll
  split
  · nofun
  · nofun
  · split <;> nofun

theorem execTcycle_fault (h : execTcycle s = .fault f) :
    s.mc ≠ .powerOn ∧ s.isrEnabled = false ∧ s.T.cycle = .error f := by
  unfold execTcycle at h
  split at h
  · cases h
  · next he =>
    simp only [not_or, Bool.not_eq_true] at he
    split at h
    · cases h
    · next e hu => exact ⟨he.1, he.2, hu.trans (congrArg _ (Host.Outcome.fault.inj h))⟩

theorem execIsr_fault (h : execIsr s = .fault f) : s.isrEnabled = true ∧ s.F.advance s.params s.mem = .error f := by
  unfold execIsr at h
  split at h
  · next hisr =>
    split at h
    · cases h
    · next e he => exact ⟨hisr, he.trans (congrArg _ (Host.Outcome.fault.inj h))⟩
  · cases h

theorem resetFramer_fault {buffer : Nat} {len : Option Nat} (h : s.resetFramer buffer len = .fault f) :
    freset s.params s.mem buffer len = .error f := by
  unfold State.resetFramer at h
  split at h
  · cases h
  · next e he => exact he.trans (congrArg _ (Host.Outcome.fault.inj h))

theorem execMeasure_fault {buffer : Nat} (h : execMeasure buffer s = .fault f) :
    s.mc ≠ .powerOn ∧ measureBuffer s.params s.mem buffer = .error f := by
  obtain ⟨hm, h⟩ := afterInit_fault h
  split at h
  · cases h
  · next e he => exact ⟨hm, he.trans (congrArg _ (Host.Outcome.fault.inj h))⟩

theorem exec_fault (h : exec i s = .fault f) : s.Faults i f := by
  have arm (hi : i ∈ arms) : s.Faults i f := by
    obtain ⟨hm, harm, ha⟩ := exec_arm_fault hi h
    exact .arm f hm harm ha
  cases i with
  | init =>
    obtain ⟨hm, rfl⟩ := execInit_fault h
    exact .doubleInit hm
  | writeLen buffer n =>
    obtain ⟨hm, rfl⟩ | ⟨hm, rfl⟩ | ⟨-, hf⟩ := enterWrite_fault (len := some n) h
    · exact .writeLenEarly buffer n hm
    · exact .writeLenAgain buffer n hm
    · cases (freset_error hf).1
  | writeMeasure buffer =>
    obtain ⟨hm, rfl⟩ | ⟨hm, rfl⟩ | ⟨hm, hf⟩ := enterWrite_fault (len := none) h
    · exact .writeMeasureEarly buffer hm
    · exact .writeMeasureAgain buffer hm
    · obtain ⟨-, rfl, hn⟩ := freset_fault hf
      exact .writeUnterminated buffer hm hn
  | poll => exact absurd h execPoll_not_fault
  | start => cases (afterInit_fault h).2
  | stop => cases (afterInit_fault h).2
  | tcycle =>
    obtain ⟨hm, hisr, hu⟩ := execTcycle_fault h
    exact .overrun f hm hisr hu
  | isr =>
    obtain ⟨hisr, ha⟩ := execIsr_fault h
    exact .isr f hisr ha
  | advStart => exact arm (by decide)
  | advDataBit => exact arm (by decide)
  | advDataEnd => exact arm (by decide)
  | advStopNext => exact arm (by decide)
  | advStopLast => exact arm (by decide)
  | advDone => exact arm (by decide)
  | fresetLen buffer n =>
    obtain ⟨-, hf⟩ := afterInit_fault h
    cases (freset_error (resetFramer_fault hf)).1
  | fresetMeasure buffer =>
    obtain ⟨hm, hf⟩ := afterInit_fault h
    obtain ⟨-, rfl, hn⟩ := freset_fault (resetFramer_fault hf)
    exact .fresetUnterminated buffer hm hn
  | measure buffer =>
    obtain ⟨hm, hn⟩ := execMeasure_fault h
    obtain rfl := measureBuffer_error hn
    exact .measureUnterminated buffer hm hn

theorem State.Faults.exec (h : s.Faults i f) : exec i s = .fault f := by
  cases h with
  | doubleInit hm => cases hc : s.mc <;> simp_all [Machine.exec, execInit]
  | writeLenEarly buffer n hm => simp [Machine.exec, execWriteLen, State.enterWrite, hm]
  | writeMeasureEarly buffer hm => simp [Machine.exec, execWriteMeasure, State.enterWrite, hm]
  | writeLenAgain buffer n hm => simp [Machine.exec, execWriteLen, State.enterWrite, hm]
  | writeMeasureAgain buffer hm => simp [Machine.exec, execWriteMeasure, State.enterWrite, hm]
  | writeUnterminated buffer hm hn =>
    simp [Machine.exec, execWriteMeasure, State.enterWrite, hm, freset_of_unterminated hn]
  | overrun e hm hisr hu => simp [Machine.exec, execTcycle, hm, hisr, hu]
  | isr e hisr ha => simp [Machine.exec, execIsr, hisr, ha]
  | arm e hm hi ha => rw [exec_enabled_arm hm hi, advanceAlone_of_error ha]
  | fresetUnterminated buffer hm hn =>
    refine (afterInit_of hm).trans ?_
    simp [State.resetFramer, freset_of_unterminated hn]
  | measureUnterminated buffer hm hn =>
    refine (afterInit_of hm).trans ?_
    simp [hn]

/-! ### Refusals -/

theorem afterInit_refused {mn : String} {o : Host.Outcome State Fault Refusal} (ho : o ≠ .refused r) :
    s.afterInit mn o = .refused r ↔ r = .notEnabled mn ∧ s.mc = .powerOn := by
  by_cases hm : s.mc = .powerOn
  · simp [afterInit_powerOn hm, hm, eq_comm]
  · simp [afterInit_of hm, hm, ho]

theorem execInit_not_refused : execInit s ≠ .refused r := by
  unfold execInit
  split <;> nofun

theorem enterWrite_not_refused {buffer : Nat} {len : Option Nat} : s.enterWrite buffer len ≠ .refused r := by
  unfold State.enterWrite
  split
  · nofun
  · nofun
  · split <;> nofun

theorem resetFramer_not_refused {buffer : Nat} {len : Option Nat} : s.resetFramer buffer len ≠ .refused r := by
  unfold State.resetFramer
  split <;> nofun

theorem execPoll_refused : execPoll s = .refused r ↔ r = .notEnabled "POLL" ∧ s.mc ≠ .waiting := by
  cases hm : s.mc <;> cases hb : s.C.busy <;> simp [execPoll, hm, hb, State.readBusy, eq_comm]

theorem execTcycle_refused :
    execTcycle s = .refused r ↔ r = .notEnabled "TCYCLE" ∧ (s.mc = .powerOn ∨ s.isrEnabled = true) := by
  by_cases he : s.mc = .powerOn ∨ s.isrEnabled = true
  · simp [execTcycle, he, eq_comm (a := r)]
  · cases hu : s.T.cycle <;> simp [execTcycle, he, hu]

theorem execIsr_refused : execIsr s = .refused r ↔ r = .notEnabled "ISR" ∧ s.isrEnabled = false := by
  cases hisr : s.isrEnabled
  · simp [execIsr, hisr, eq_comm]
  · cases ha : s.F.advance s.params s.mem <;> simp [execIsr, hisr, ha]

theorem execMeasure_refused {buffer : Nat} :
    execMeasure buffer s = .refused r ↔ r = .notEnabled "MEASURE" ∧ s.mc = .powerOn := by
  refine afterInit_refused ?_
  split <;> nofun

end

/-- Settles O48: one case per operation. What never refuses answers no refusal, the arms refuse where another one is
enabled, and every other operation refuses under its own condition or, performed by itself, before INIT. -/
theorem onlyDisabledOperationsAreRefused : Obligations.OnlyDisabledOperationsAreRefused := by
  intro i s r
  cases i with
  | init => simp [exec, execInit_not_refused, isInternal]
  | writeLen buffer n => simp [exec, execWriteLen, enterWrite_not_refused, isInternal]
  | writeMeasure buffer => simp [exec, execWriteMeasure, enterWrite_not_refused, isInternal]
  | poll => simp [exec, execPoll_refused, isInternal, Instr.mnemonic]
  | start => simp [exec, execStart, afterInit_refused, isInternal, Instr.mnemonic]
  | stop => simp [exec, execStop, afterInit_refused, isInternal, Instr.mnemonic]
  | tcycle => simp [exec, execTcycle_refused, isInternal, Instr.mnemonic]
  | isr => simp [exec, execIsr_refused, isInternal, Instr.mnemonic]
  | advStart => simp [exec_arm_refused (i := .advStart) (by decide), isInternal, arm_eq_advStart]
  | advDataBit => simp [exec_arm_refused (i := .advDataBit) (by decide), isInternal, arm_eq_advDataBit]
  | advDataEnd => simp [exec_arm_refused (i := .advDataEnd) (by decide), isInternal, arm_eq_advDataEnd]
  | advStopNext => simp [exec_arm_refused (i := .advStopNext) (by decide), isInternal, arm_eq_advStopNext]
  | advStopLast => simp [exec_arm_refused (i := .advStopLast) (by decide), isInternal, arm_eq_advStopLast]
  | advDone => simp [exec_arm_refused (i := .advDone) (by decide), isInternal, arm_eq_advDone]
  | fresetLen buffer n =>
    simp [exec, execFresetLen, afterInit_refused, resetFramer_not_refused, isInternal, Instr.mnemonic]
  | fresetMeasure buffer =>
    simp [exec, execFresetMeasure, afterInit_refused, resetFramer_not_refused, isInternal, Instr.mnemonic]
  | measure buffer => simp [exec, execMeasure_refused, isInternal, Instr.mnemonic]

/-- MEASURE finds no marker inside the count and the address space (40_framer R81). -/
theorem no_marker_of_unterminated {p : Params} {m : Memory} {buffer : Nat} {e : Fault}
    (h : measureBuffer p m buffer = .error e) :
    ∀ n, n < 2 ^ p.lenW → buffer + n < 2 ^ p.addrW → m.read (buffer + n) ≠ 0x00#8 := by
  obtain ⟨n, hn, -⟩ | ⟨-, hnone⟩ := measureBuffer_cases p m buffer
  · rw [hn] at h
    cases h
  · intro n hlen haddr
    exact measureFrom_none.mp hnone n (Nat.zero_le n) (by unfold measureLimit; omega)

/-- Settles O47: each way to fault has the fault, the code and the condition its table names. -/
theorem faultsHaveOnlyTheirCauses : Obligations.FaultsHaveOnlyTheirCauses := by
  intro i s f h
  cases exec_fault h with
  | doubleInit hm => exact .inr (.inl ⟨rfl, rfl, hm, rfl⟩)
  | writeLenEarly buffer n hm => exact .inl ⟨rfl, rfl, hm, .inl ⟨_, _, rfl⟩⟩
  | writeMeasureEarly buffer hm => exact .inl ⟨rfl, rfl, hm, .inr ⟨_, rfl⟩⟩
  | writeLenAgain buffer n hm => exact .inr (.inr (.inl ⟨rfl, rfl, hm, .inl ⟨_, _, rfl⟩⟩))
  | writeMeasureAgain buffer hm => exact .inr (.inr (.inl ⟨rfl, rfl, hm, .inr ⟨_, rfl⟩⟩))
  | writeUnterminated buffer hm hn =>
    exact .inr (.inr (.inr (.inr (.inl ⟨_, rfl, rfl, .inl rfl, no_marker_of_unterminated hn⟩))))
  | fresetUnterminated buffer hm hn =>
    exact .inr (.inr (.inr (.inr (.inl ⟨_, rfl, rfl, .inr (.inl rfl), no_marker_of_unterminated hn⟩))))
  | measureUnterminated buffer hm hn =>
    exact .inr (.inr (.inr (.inr (.inl ⟨_, rfl, rfl, .inr (.inr rfl), no_marker_of_unterminated hn⟩))))
  | overrun _ hm hisr hu =>
    obtain ⟨hrun, hcnt, hpend, rfl⟩ := cycle_error hu
    exact .inr (.inr (.inr (.inr (.inr ⟨rfl, rfl, rfl, hrun, hcnt, hpend⟩))))
  | isr _ hisr ha =>
    obtain ⟨hp, h8, ⟨hl, rfl⟩ | ⟨-, haddr, rfl⟩⟩ := advance_error ha
    · exact .inr (.inr (.inr (.inl ⟨_, rfl, rfl, .inr rfl, hp, h8, .inl ⟨rfl, hl⟩⟩)))
    · exact .inr (.inr (.inr (.inl ⟨_, rfl, rfl, .inr rfl, hp, h8, .inr ⟨rfl, haddr⟩⟩)))
  | arm _ hm hi ha =>
    obtain ⟨hp, h8, hcause⟩ := advance_error ha
    have hbit : i = .advDataBit := hi.symm.trans (arm_eq_advDataBit.mpr ⟨hp, h8⟩)
    obtain ⟨hl, rfl⟩ | ⟨-, haddr, rfl⟩ := hcause
    · exact .inr (.inr (.inr (.inl ⟨_, rfl, rfl, .inl hbit, hp, h8, .inl ⟨rfl, hl⟩⟩)))
    · exact .inr (.inr (.inr (.inl ⟨_, rfl, rfl, .inl hbit, hp, h8, .inr ⟨rfl, haddr⟩⟩)))

end Sys2Proof.Machine
end

section
/-! PROOFS of 40_framer R80 to R93: the arms of ADVANCE, FRESET and MEASURE by themselves, and the framer's position. -/

namespace Sys2Proof.Machine

/-! ### The arms -/

section
variable {p : Params} {m : Memory} {f : Framer}

/-- A byte outside the address space is not read: the data bit faults (20_memory R41). -/
theorem sendBit_of_address_le (h8 : f.bitIndex.val < 8) (hl : f.byteIndex < f.length)
    (ha : 2 ^ p.addrW ≤ f.byteAddress) :
    f.sendBit p m h8 = .error (.bufferOutOfRange f.byteAddress) := by
  simp [Framer.sendBit, memRead, Nat.not_le.mpr hl, Nat.not_lt.mpr ha]

/-- A data bit inside the buffer and the address space is sent. -/
theorem advance_sends_bit (hp : f.phase = .data) (h8 : f.bitIndex.val < 8) (hl : f.byteIndex < f.length)
    (ha : f.byteAddress < 2 ^ p.addrW) :
    f.advance p m =
      .ok (bitSymbol (dataBit (m.read f.byteAddress) f.bitIndex.val), { f with bitIndex := nextBit f.bitIndex h8 }) :=
  (advance_of_dataBit hp h8).trans (sendBit_of_lt h8 hl ha)

end

/-- Settles O7: an index not below the length, an address that does not fit, and the bit that is sent. -/
theorem dataArmSendsOneBit : Obligations.DataArmSendsOneBit := by
  refine ⟨fun ev b l hev => decode_of_advanceRow (by simp [advanceRows]) hev b l, fun p m f h8 hp => ⟨fun hl => ?_,
    fun hl ha => ?_, fun hl ha => advance_sends_bit hp h8 hl ha⟩⟩
  · rw [advance_of_dataBit hp h8, sendBit_of_length_le h8 hl]
  · rw [advance_of_dataBit hp h8, sendBit_of_address_le h8 hl ha, Framer.byteAddress]

/-- Settles O8: the pattern fits the row, and the arm is ADVANCE's at bit 8. -/
theorem dataEndArmSendsFirstFramingBit : Obligations.DataEndArmSendsFirstFramingBit :=
  ⟨fun _ b l hev => decode_of_advanceRow (by simp [advanceRows]) hev b l, fun _ _ _ hp h8 => advance_of_dataEnd hp h8⟩

/-- The enabled arm answers what ADVANCE answers. -/
theorem exec_arm_of_ok {s : State} {i : Instr} {a : Symbol × Framer} (hm : s.mc ≠ .powerOn) (hi : s.F.arm = i)
    (ha : s.F.advance s.params s.mem = .ok a) : exec i s = .next (s.returnSymbol a) :=
  (State.Completes.arm a hm hi ha).exec

/-- Settles O12: under its condition each arm is the framer's, and ADVANCE answers. -/
theorem armsCompleteByThemselves : Obligations.ArmsCompleteByThemselves := by
  intro s hm
  refine ⟨fun hp => ?_, fun h8 hp hl ha => ?_, fun hp h8 => ?_, fun hp hne => ?_, fun hp hl => ?_, fun hp => ?_⟩
  · exact exec_arm_of_ok hm (arm_eq_advStart.mpr hp) (advance_of_start hp)
  · rw [← bitSymbol_dataBit _ h8]
    exact exec_arm_of_ok hm (arm_eq_advDataBit.mpr ⟨hp, h8⟩) (advance_sends_bit hp h8 hl ha)
  · exact exec_arm_of_ok hm (arm_eq_advDataEnd.mpr ⟨hp, h8⟩) (advance_of_dataEnd hp h8)
  · exact exec_arm_of_ok hm (arm_eq_advStopNext.mpr ⟨hp, hne⟩) (advance_of_stopNext hp hne)
  · exact exec_arm_of_ok hm (arm_eq_advStopLast.mpr ⟨hp, hl⟩) (advance_of_stopLast hp hl)
  · exact exec_arm_of_ok hm (arm_eq_advDone.mpr hp) (advance_of_done hp)

/-- Settles O13: the word names the framer's arm, which is ADVANCE by itself; every other arm is refused. -/
theorem namedArmDoesWhatAdvanceDoes : Obligations.NamedArmDoesWhatAdvanceDoes := by
  intro s i b l hm hdecode
  have harm : s.F.arm = i := Except.ok.inj ((decode_advanceWord s.F b l).symm.trans hdecode)
  refine ⟨fun y g ha => exec_arm_of_ok hm harm ha, fun e ha => (State.Faults.arm e hm harm ha).exec, fun j hj hne => ?_⟩
  exact (exec_arm_refused hj).mpr ⟨rfl, .inl fun h => hne (h.symm.trans harm)⟩

/-! ### FRESET and MEASURE -/

/-- Settles O14: the first marker is MEASURE's answer, and with no marker it faults. -/
theorem measureCountsToTheMarker : Obligations.MeasureCountsToTheMarker := by
  intro s buffer hm
  refine ⟨fun n hlen haddr hmark hfirst => ?_, fun hnone => ?_⟩
  · exact (State.Completes.measure buffer n hm (measureBuffer_of_marker hlen haddr hmark hfirst)).exec
  · exact (State.Faults.measureUnterminated buffer hm (measureBuffer_of_no_marker hnone)).exec

/-- Settles O15: FRESET over the length given or measured. -/
theorem fresetSetsTheFramer : Obligations.FresetSetsTheFramer := by
  intro s buffer hm
  refine ⟨fun n => (State.Completes.fresetLen buffer n hm).exec, fun n hlen haddr hmark hfirst => ?_, fun hnone => ?_⟩
  · exact (State.Completes.fresetMeasure buffer n hm (measureBuffer_of_marker hlen haddr hmark hfirst)).exec
  · exact (State.Faults.fresetUnterminated buffer hm (measureBuffer_of_no_marker hnone)).exec

/-! ### The phase graph and the position -/

/-- Settles O16: one edge per arm. -/
theorem phaseGraphHasOnlyItsEdges : Obligations.PhaseGraphHasOnlyItsEdges := by
  intro p m f g y h
  refine ⟨?_, advance_keeps_buffer h⟩
  rcases advance_ok h with
    ⟨hp, ha⟩ | ⟨h8, hp, -, -, ha⟩ | ⟨hp, h8, ha⟩ | ⟨hp, -, ha⟩ | ⟨hp, -, ha⟩ | ⟨hp, ha⟩ <;> cases ha
  · exact .inl ⟨hp, rfl, rfl⟩
  · exact .inr (.inl ⟨hp, hp, bitSymbol_ne_end _, rfl⟩)
  · exact .inr (.inr (.inl ⟨hp, rfl, rfl, congrArg Fin.val h8⟩))
  · exact .inr (.inr (.inr (.inr (.inl ⟨hp, rfl, rfl⟩))))
  · exact .inr (.inr (.inr (.inl ⟨hp, rfl, rfl⟩)))
  · exact .inr (.inr (.inr (.inr (.inr ⟨hp, hp, rfl⟩))))

theorem Framer.Engaged.pos_eq_end_iff {f : Framer} (hf : f.Engaged) : f.pos = 11 * f.length ↔ f.phase = .done := by
  refine ⟨fun hpos => ?_, pos_of_done⟩
  by_contra hne
  exact (hf.pos_lt hne).ne hpos

/-- Before the end of the stream a call moves the position on by one (40_framer R91). -/
theorem advance_pos_succ {p : Params} {m : Memory} {f : Framer} {a : Symbol × Framer} (hf : f.Engaged)
    (hne : f.phase ≠ .done) (h : f.advance p m = .ok a) : a.2.pos = f.pos + 1 := by
  rw [advance_pos hf h, min_eq_left (hf.pos_lt hne)]

/-- Settles O17: the framer stays engaged, and an engaged framer's position is known. -/
theorem positionCountsTheCalls : Obligations.PositionCountsTheCalls := by
  refine ⟨over_pos, fun p m f g y hf h => ?_⟩
  have hg : g.Engaged := advance_engaged hf h
  obtain ⟨-, hlen⟩ : g.buf = f.buf ∧ g.length = f.length := advance_keeps_buffer h
  refine ⟨hg, fun hne => advance_pos_succ hf hne h, fun hdone => ?_, advance_symbol hf h, hlen ▸ hg.pos_le,
    hlen ▸ hg.pos_eq_end_iff⟩
  cases (advance_of_done hdone).symm.trans h
  rfl

/-- The closed form's END stands at position `11n - 1` and not before (30_encoding R66). -/
theorem closedSymbol_eq_end_iff (b : Nat → Byte) {n k : Nat} (hk : k < 11 * n) :
    closedSymbol b n k = .endOfStream ↔ k = 11 * n - 1 := by
  obtain ⟨i, r, hr, rfl⟩ : ∃ i r, r < 11 ∧ k = 11 * i + r :=
    ⟨k / 11, k % 11, Nat.mod_lt _ (by decide), (Nat.div_add_mod k 11).symm⟩
  rw [closedSymbol_slot b (by omega) hr]
  split
  · simp; omega
  · split
    · split <;> simp <;> omega
    · split
      · simp; omega
      · split <;> simp <;> omega

/-- Settles O18: `k` calls of an engaged framer from position 0, and where the closed form ends. -/
theorem framerMatchesTheClosedForm : Obligations.FramerMatchesTheClosedForm := by
  intro p m buffer n hn hspace
  refine ⟨fun k => ?_, (closedSymbol_eq_end_iff _ (by omega)).mpr rfl, fun k hk hend => ?_⟩
  · obtain ⟨g, hcalls, -⟩ := calls_of_engaged (m := m) (over_engaged (buffer := buffer) hn) hspace k
    simp only [over_buf, over_length, over_pos, zero_add] at hcalls
    exact ⟨g, hcalls⟩
  · exact hk.ne ((closedSymbol_eq_end_iff _ (by omega)).mp hend)

theorem calls_succ_error {p : Params} {m : Memory} {f : Framer} {e : Fault} (k : Nat) (h : f.advance p m = .error e) :
    f.calls p m (k + 1) = .error e := by
  simp [Framer.calls, h]

theorem calls_succ_error_later {p : Params} {m : Memory} {f : Framer} {a : Symbol × Framer} {e : Fault} {k : Nat}
    (ha : f.advance p m = .ok a) (h : a.2.calls p m k = .error e) : f.calls p m (k + 1) = .error e := by
  simp [Framer.calls, ha, h]

/-- Settles O20: the start bit is sent without a look at the length, and the first data bit finds no byte. -/
theorem zeroLengthFramerFaultsAtTheSecondCall : Obligations.ZeroLengthFramerFaultsAtTheSecondCall := by
  intro p m buffer
  have hstart : (Framer.over buffer 0).advance p m = .ok (Framer.over buffer 0).startBit := advance_of_start rfl
  have hbit : (Framer.over buffer 0).startBit.2.bitIndex.val < 8 := Nat.zero_lt_succ 7
  refine ⟨⟨_, calls_succ (r := ([], _)) (k := 0) hstart rfl⟩,
    fun k => calls_succ_error_later hstart (calls_succ_error k ?_)⟩
  exact (advance_of_dataBit rfl hbit).trans (sendBit_of_length_le hbit (Nat.le_refl 0))

end Sys2Proof.Machine
end

section
/-! PROOFS of 41_controller R100 to R104 and 42_timer_handler R120 to R127: what INIT, WRITE, POLL, START, STOP,
TCYCLE and ISR do where they complete, and how they fault. -/

namespace Sys2Proof.Machine

/-! ### The main context -/

/-- Settles O21: INIT's assignments at power-on, with the address it draws, and its fault elsewhere. -/
theorem initConfiguresTheBlock : Obligations.InitConfiguresTheBlock := by
  intro s
  refine ⟨fun hm => ?_, fun hm => (State.Faults.doubleInit hm).exec⟩
  exact ⟨s.freeBuffer, Nat.mod_lt _ (by positivity), (State.Completes.init hm).exec⟩

/-- In Ready, WRITE over at least one byte engages the framer, raises `busy`, starts the timer and waits. -/
theorem enterWrite_of_pos {s : State} {buffer n : Nat} {len : Option Nat} (hready : s.mc = .ready) (hn : 1 ≤ n)
    (h : resolveLength s.params s.mem buffer len = .ok n) :
    s.enterWrite buffer len = .next (((s.setFramer (Framer.over buffer n)).raiseBusy.startTimer).setMc .waiting) := by
  rw [enterWrite_of_ready hready h, engage_pos s (f := Framer.over buffer n) (Nat.ne_of_gt hn)]

/-- Settles O22: both forms of the length operand resolve to the same length. -/
theorem writeStartsATransmission : Obligations.WriteStartsATransmission := by
  intro s buffer n hready hn
  refine ⟨enterWrite_of_pos (len := some n) hready hn rfl, fun hlen haddr hmark hfirst => ?_⟩
  exact enterWrite_of_pos (len := none) hready hn (measureBuffer_of_marker hlen haddr hmark hfirst)

/-- Settles O24: each misuse is one of the causes of a fault. -/
theorem misuseFaultsByName : Obligations.MisuseFaultsByName := by
  intro s buffer n
  refine ⟨fun hm => ⟨(State.Faults.writeLenEarly buffer n hm).exec, (State.Faults.writeMeasureEarly buffer hm).exec⟩,
    fun hm => ⟨(State.Faults.writeLenAgain buffer n hm).exec, (State.Faults.writeMeasureAgain buffer hm).exec⟩,
    fun hm => (State.Faults.doubleInit ?_).exec,
    fun hm hnone => (State.Faults.writeUnterminated buffer hm (measureBuffer_of_no_marker hnone)).exec⟩
  rcases hm with hm | hm <;> simp [hm]

/-- Settles O25: POLL's two outcomes. -/
theorem pollReturnsWhenNotBusy : Obligations.PollReturnsWhenNotBusy :=
  fun _ hm => ⟨fun hb => (State.Completes.pollDone hm hb).exec, fun hb => (State.Completes.pollBusy hm hb).exec⟩

/-- Settles O26: START's and STOP's assignments. -/
theorem startAndStopSetTimerAndBusy : Obligations.StartAndStopSetTimerAndBusy :=
  fun _ hm => ⟨(State.Completes.start hm).exec, (State.Completes.stop hm).exec⟩

/-! ### The timer -/

section
variable {t : Timer}

theorem cycle_of_stopped (hrun : t.run = false) : t.cycle = .ok t := by
  simp [Timer.cycle, hrun]

theorem cycle_of_period_end (hrun : t.run = true) (hcnt : t.cnt + 1 = t.period) (hpend : t.irqPend = false) :
    t.cycle = .ok t.endPeriod := by
  simp [Timer.cycle, hrun, hcnt, hpend]

theorem cycle_of_overrun (hrun : t.run = true) (hcnt : t.cnt + 1 = t.period) (hpend : t.irqPend = true) :
    t.cycle = .error .timerOverrun := by
  simp [Timer.cycle, hrun, hcnt, hpend]

theorem cycle_of_counting (hrun : t.run = true) (hcnt : t.cnt + 1 ≠ t.period) :
    t.cycle = .ok { t with cnt := t.cnt + 1 } := by
  simp [Timer.cycle, hrun, hcnt]

/-- Within a period the cycles count and do nothing else. -/
theorem cycles_within_period (hrun : t.run = true) {k : Nat} (hk : t.cnt + k < t.period) :
    Timer.cycles k t = .ok { t with cnt := t.cnt + k } := by
  induction k generalizing t with
  | zero => rfl
  | succ k ih =>
    have hnext : Timer.cycles k { t with cnt := t.cnt + 1 } = .ok { t with cnt := t.cnt + 1 + k } :=
      ih (t := { t with cnt := t.cnt + 1 }) hrun (by dsimp only; omega)
    simp only [Timer.cycles, cycle_of_counting hrun (by omega), hnext, Nat.add_assoc, Nat.add_comm 1]

/-- The cycles of one period and `j` more: those before the period's end count, the last one decides. -/
theorem cycles_period_add (hrun : t.run = true) (hcnt : t.cnt = 0) (hp : 1 ≤ t.period) (j : Nat) :
    Timer.cycles (t.period + j) t =
      match Timer.cycle { t with cnt := t.period - 1 } with
      | .ok u => Timer.cycles j u
      | .error e => .error e := by
  have hcount : Timer.cycles (t.period - 1) t = .ok { t with cnt := t.period - 1 } := by
    rw [cycles_within_period hrun (by omega), hcnt, Nat.zero_add]
  have hsum : t.period + j = t.period - 1 + (j + 1) := by omega
  rw [hsum, Timer.cycles_add, hcount]
  simp only [Timer.cycles]
  cases Timer.cycle { t with cnt := t.period - 1 } <;> rfl

end

/-- Settles O30: TCYCLE is enabled, and the timer's cycle answers or overruns. -/
theorem timerCountsAndRequests : Obligations.TimerCountsAndRequests := by
  intro s hm hno
  have hisr : s.isrEnabled = false := by
    rw [← Bool.not_eq_true, isrEnabled_iff]
    exact fun h => hno h.2
  exact ⟨fun hrun => (State.Completes.tcycle _ hm hisr (cycle_of_stopped hrun)).exec,
    fun hrun hcnt hpend => (State.Completes.tcycle _ hm hisr (cycle_of_period_end hrun hcnt hpend)).exec,
    fun hrun hcnt hpend => (State.Faults.overrun _ hm hisr (cycle_of_overrun hrun hcnt hpend)).exec,
    fun hrun hcnt => (State.Completes.tcycle _ hm hisr (cycle_of_counting hrun hcnt)).exec⟩

/-- Settles O31: the first period's last cycle requests, and the second period's last cycle finds the request pending.
-/
theorem requestComesAfterOnePeriod : Obligations.RequestComesAfterOnePeriod := by
  intro t hrun hcnt hpend hp
  have hend : Timer.cycle { t with cnt := t.period - 1 } = .ok { t with cnt := 0, irqPend := true } :=
    cycle_of_period_end hrun (by dsimp only; omega) hpend
  have hover : Timer.cycle { t with cnt := t.period - 1, irqPend := true } = .error .timerOverrun :=
    cycle_of_overrun hrun (by dsimp only; omega) rfl
  refine ⟨fun k hk => ?_, ?_, fun j => ?_⟩
  · rw [cycles_within_period hrun (by omega), hcnt, Nat.zero_add]
  · have hfirst := cycles_period_add hrun hcnt hp 0
    rw [hend] at hfirst
    simpa [Timer.cycles, hcnt] using hfirst
  · have hsum : 2 * t.period + j = t.period + (t.period + j) := by omega
    rw [hsum, cycles_period_add hrun hcnt hp, hend]
    refine (cycles_period_add (t := { t with cnt := 0, irqPend := true }) hrun rfl hp j).trans ?_
    simp only [hover]

/-! ### The handler -/

/-- Settles O32: ISR is enabled, and ADVANCE's answer decides what the handler leaves. -/
theorem handlerDrivesTheSymbol : Obligations.HandlerDrivesTheSymbol := by
  intro s hm hpend hen hgie
  have hisr : s.isrEnabled = true := isrEnabled_iff.mpr ⟨hm, hpend, hen, hgie⟩
  exact ⟨fun g ha => (State.Completes.isr _ hisr ha).exec, fun g ha => (State.Completes.isr _ hisr ha).exec,
    fun g ha => (State.Completes.isr _ hisr ha).exec, fun e ha => (State.Faults.isr e hisr ha).exec⟩

@[simp] theorem handle_F (s : State) (a : Symbol × Framer) : (s.handle a).F = a.2 := by
  rcases handle_cases s a with ⟨-, h⟩ | ⟨-, h⟩ | ⟨-, h⟩ <;> rw [h] <;> rfl

@[simp] theorem handle_mc (s : State) (a : Symbol × Framer) : (s.handle a).mc = s.mc := by
  rcases handle_cases s a with ⟨-, h⟩ | ⟨-, h⟩ | ⟨-, h⟩ <;> rw [h] <;> rfl

@[simp] theorem handle_irqPend (s : State) (a : Symbol × Framer) : (s.handle a).T.irqPend = s.T.irqPend := by
  rcases handle_cases s a with ⟨-, h⟩ | ⟨-, h⟩ | ⟨-, h⟩ <;> rw [h] <;> rfl

/-- Settles O33: ADVANCE answers over an engaged framer, and its symbol and framer are the handler's. -/
theorem handlerCompletesOverAnEngagedFramer : Obligations.HandlerCompletesOverAnEngagedFramer := by
  intro s hm hpend hen hgie hf hspace
  have hisr : s.isrEnabled = true := isrEnabled_iff.mpr ⟨hm, hpend, hen, hgie⟩
  obtain ⟨a, ha⟩ := advance_completes (m := s.mem) hf hspace
  refine ⟨s.clearPending.handle a, (State.Completes.isr a hisr ha).exec, ?_, ?_, fun hne => ?_, ?_, ?_⟩
  · rw [handle_SYM, advance_symbol hf ha]
    rfl
  · rw [handle_F]
    exact advance_engaged hf ha
  · rw [handle_F]
    exact advance_pos_succ hf hne ha
  · rw [handle_irqPend]
    rfl
  · rw [handle_mc]
    rfl

end Sys2Proof.Machine
end

section
/-! PROOFS of the frames: what each operation leaves alone (10_state R13, R28, R29, 40_framer, 41_controller,
42_timer_handler). -/

namespace Sys2Proof.Machine

/-! ### What the composite updates write -/

/-- WRITE's assignments touch the framer, `busy`, `T.run`, `T.cnt` and `mc`, and nothing else (41_controller R101). -/
theorem engage_writes (s : State) (f : Framer) :
    s.engage f = { s with
      F := f
      C := (s.engage f).C
      T := { s.T with run := (s.engage f).T.run, cnt := (s.engage f).T.cnt }
      mc := (s.engage f).mc } := by
  unfold State.engage
  split <;> rfl

/-- The handler's assignments after ADVANCE touch the framer, `busy`, `T.run`, `T.cnt` and the pin's level, and append
to the logs (42_timer_handler R122). -/
theorem handle_writes (s : State) (a : Symbol × Framer) :
    s.handle a = { s with
      F := a.2
      C := (s.handle a).C
      T := { s.T with run := (s.handle a).T.run, cnt := (s.handle a).T.cnt }
      PIN := { s.PIN with level := (s.handle a).PIN.level }
      SYM := s.SYM ++ [a.1]
      W := s.W ++ a.1.level?.toList } := by
  obtain ⟨y, f⟩ := a
  cases y
  · rfl
  · rfl
  · simp only [Symbol.level?, Option.toList_none, List.append_nil]
    rfl

@[simp] theorem engage_F (s : State) (f : Framer) : (s.engage f).F = f := by rw [engage_writes]

theorem handle_W (s : State) (a : Symbol × Framer) : (s.handle a).W = s.W ++ a.1.level?.toList := by rw [handle_writes]

/-- The host's memory, the platform's enable, the parameters and what is still to come stand in `t` as in `s`: no
operation writes any of them (10_state R31). -/
def State.SameEnvironment (s t : State) : Prop :=
  t.mem = s.mem ∧ t.gie = s.gie ∧ t.params = s.params ∧ t.program = s.program ∧ t.schedule = s.schedule ∧
    t.offered = s.offered

theorem engage_sameEnvironment (s : State) (f : Framer) : s.SameEnvironment (s.engage f) := by
  rw [engage_writes]
  exact ⟨rfl, rfl, rfl, rfl, rfl, rfl⟩

theorem exec_sameEnvironment {i : Instr} {s t : State} (h : exec i s = .next t) : s.SameEnvironment t := by
  cases exec_next h with
  | writeLen => exact engage_sameEnvironment s _
  | writeMeasure => exact engage_sameEnvironment s _
  | isr a =>
    rw [handle_writes]
    exact ⟨rfl, rfl, rfl, rfl, rfl, rfl⟩
  | _ => exact ⟨rfl, rfl, rfl, rfl, rfl, rfl⟩

/-! ### The main context -/

/-- INIT, WRITE and POLL log nothing and return no result. -/
theorem mainContext_keeps_logs {i : Instr} {s t : State} (h : exec i s = .next t)
    (hi : i = .init ∨ i = .poll ∨ (∃ b n, i = .writeLen b n) ∨ (∃ b, i = .writeMeasure b)) :
    t.SYM = s.SYM ∧ t.W = s.W ∧ t.result = s.result := by
  have write {buffer : Nat} {len : Option Nat} (h : s.enterWrite buffer len = .next t) :
      t.SYM = s.SYM ∧ t.W = s.W ∧ t.result = s.result := by
    obtain ⟨-, n, -, rfl⟩ := enterWrite_next h
    rw [engage_writes]
    exact ⟨rfl, rfl, rfl⟩
  rcases hi with rfl | rfl | ⟨b, n, rfl⟩ | ⟨b, rfl⟩
  · obtain ⟨-, rfl⟩ := execInit_next h
    exact ⟨rfl, rfl, rfl⟩
  · obtain ⟨-, ⟨-, rfl⟩ | ⟨-, rfl⟩⟩ := execPoll_next h
    · exact ⟨rfl, rfl, rfl⟩
    · exact ⟨rfl, rfl, rfl⟩
  · exact write (len := some n) h
  · exact write (len := none) h

/-- WRITE and POLL neither clear nor raise the request, and draw nothing. -/
theorem mainContext_keeps_request {i : Instr} {s t : State} (h : exec i s = .next t)
    (hi : i = .poll ∨ (∃ b n, i = .writeLen b n) ∨ (∃ b, i = .writeMeasure b)) :
    t.T.irqPend = s.T.irqPend ∧ t.draws = s.draws := by
  have write {buffer : Nat} {len : Option Nat} (h : s.enterWrite buffer len = .next t) :
      t.T.irqPend = s.T.irqPend ∧ t.draws = s.draws := by
    obtain ⟨-, n, -, rfl⟩ := enterWrite_next h
    rw [engage_writes]
    exact ⟨rfl, rfl⟩
  rcases hi with rfl | ⟨b, n, rfl⟩ | ⟨b, rfl⟩
  · obtain ⟨-, ⟨-, rfl⟩ | ⟨-, rfl⟩⟩ := execPoll_next h
    · exact ⟨rfl, rfl⟩
    · exact ⟨rfl, rfl⟩
  · exact write (len := some n) h
  · exact write (len := none) h

/-- Settles O39: the environment, the logs and the result, then the pin and the timer's configuration and request. -/
theorem mainContextFrame : Obligations.MainContextFrame := by
  intro s t i h hi
  obtain ⟨hmem, hgie, hparams, hprogram, hschedule, hoffered⟩ := exec_sameEnvironment h
  obtain ⟨hsym, hw, hresult⟩ := mainContext_keeps_logs h hi
  refine ⟨fun a => by rw [hmem], hmem, hsym, hw, hgie, hparams, hprogram, hschedule, hresult, hoffered,
    fun hinit => ?_, ?_⟩
  · have hcall := hi.resolve_left hinit
    obtain ⟨hpend, hdraws⟩ := mainContext_keeps_request h hcall
    obtain ⟨hpin, hen, -, hperiod⟩ := exec_keeps_pin h hinit (by rintro rfl; simp at hcall)
    exact ⟨hpin, hperiod, hen, hpend, hdraws⟩
  · rintro rfl
    obtain ⟨-, ⟨-, rfl⟩ | ⟨-, rfl⟩⟩ := execPoll_next h
    · exact ⟨rfl, rfl, rfl⟩
    · exact ⟨rfl, rfl, rfl⟩

/-! ### The timer and the handler -/

theorem cycle_keeps_run {t u : Timer} (h : t.cycle = .ok u) : u.run = t.run := by
  rcases cycle_ok h with ⟨-, rfl⟩ | ⟨-, -, -, rfl⟩ | ⟨-, -, rfl⟩
  · rfl
  · rfl
  · rfl

/-- START, STOP, TCYCLE and ISR leave `mc`, the buffer, the draws and the result alone, and all but ISR the whole
framer and the logs. -/
theorem timerAndHandler_keep {i : Instr} {s t : State} (h : exec i s = .next t)
    (hi : i = .start ∨ i = .stop ∨ i = .tcycle ∨ i = .isr) :
    (t.mc = s.mc ∧ t.draws = s.draws ∧ t.result = s.result ∧ t.F.buf = s.F.buf ∧ t.F.length = s.F.length) ∧
      (i ≠ .isr → t.F = s.F ∧ t.SYM = s.SYM ∧ t.W = s.W) := by
  rcases hi with rfl | rfl | rfl | rfl
  · obtain ⟨-, rfl⟩ := execStart_next h
    exact ⟨⟨rfl, rfl, rfl, rfl, rfl⟩, fun _ => ⟨rfl, rfl, rfl⟩⟩
  · obtain ⟨-, rfl⟩ := execStop_next h
    exact ⟨⟨rfl, rfl, rfl, rfl, rfl⟩, fun _ => ⟨rfl, rfl, rfl⟩⟩
  · obtain ⟨-, -, u, -, rfl⟩ := execTcycle_next h
    exact ⟨⟨rfl, rfl, rfl, rfl, rfl⟩, fun _ => ⟨rfl, rfl, rfl⟩⟩
  · obtain ⟨-, a, ha, rfl⟩ := execIsr_next h
    rw [handle_writes]
    exact ⟨⟨rfl, rfl, rfl, advance_keeps_buffer ha⟩, fun hne => absurd rfl hne⟩

/-- Settles O40: the environment and the configuration, then what the four operations leave alone, and each one's own
part of the timer. -/
theorem timerAndHandlerFrame : Obligations.TimerAndHandlerFrame := by
  intro s t i h hi
  obtain ⟨hmem, hgie, hparams, hprogram, hschedule, hoffered⟩ := exec_sameEnvironment h
  have hinit : i ≠ .init := by
    rintro rfl
    simp at hi
  obtain ⟨hen, hdir, hperiod⟩ := exec_sameConfiguration h hinit
  obtain ⟨⟨hmc, hdraws, hresult, hbuf, hlen⟩, hquiet⟩ := timerAndHandler_keep h hi
  refine ⟨fun a => by rw [hmem], hmem, hgie, hparams, hmc, hprogram, hschedule, hdraws, hresult, hoffered, hperiod, hen,
    hdir, hbuf, hlen, fun hisr => ?_, ?_, ?_, ?_⟩
  · obtain ⟨hF, hsym, hw⟩ := hquiet hisr
    exact ⟨hF, (exec_keeps_pin h hinit hisr).1, hsym, hw⟩
  · rintro rfl
    obtain ⟨-, -, u, hu, rfl⟩ := execTcycle_next h
    exact ⟨cycle_keeps_run hu, rfl⟩
  · rintro rfl
    obtain ⟨-, rfl⟩ := execStart_next h
    exact ⟨rfl, rfl⟩
  · rintro rfl
    obtain ⟨-, rfl⟩ := execStop_next h
    rfl

/-! ### The framer -/

/-- Settles O41: an arm writes the framer and its result, FRESET the framer, MEASURE its result. -/
theorem framerFrame : Obligations.FramerFrame := by
  intro s t i h hi
  by_cases harm : i ∈ arms
  · obtain ⟨-, -, a, ha, rfl⟩ := exec_arm_next harm h
    refine ⟨fun _ => rfl, rfl, rfl, rfl, rfl, rfl, rfl, rfl, rfl, rfl, rfl, rfl, rfl, rfl, ?_, ?_,
      fun _ => advance_keeps_buffer ha⟩
    · rintro ⟨b, rfl⟩
      simp [arms] at harm
    · rintro (⟨b, n, rfl⟩ | ⟨b, rfl⟩) <;> simp [arms] at harm
  · obtain ⟨b, n, rfl⟩ | ⟨b, rfl⟩ | ⟨b, rfl⟩ :
        (∃ b n, i = .fresetLen b n) ∨ (∃ b, i = .fresetMeasure b) ∨ (∃ b, i = .measure b) := by
      simp only [arms, List.mem_cons, List.not_mem_nil, or_false, not_or] at harm
      simpa [harm] using hi
    · obtain ⟨-, rfl⟩ := execFresetLen_next h
      exact ⟨fun _ => rfl, rfl, rfl, rfl, rfl, rfl, rfl, rfl, rfl, rfl, rfl, rfl, rfl, rfl, by simp,
        fun _ => rfl, by simp⟩
    · obtain ⟨-, n, -, rfl⟩ := execFresetMeasure_next h
      exact ⟨fun _ => rfl, rfl, rfl, rfl, rfl, rfl, rfl, rfl, rfl, rfl, rfl, rfl, rfl, rfl, by simp,
        fun _ => rfl, by simp⟩
    · obtain ⟨-, n, -, rfl⟩ := execMeasure_next h
      exact ⟨fun _ => rfl, rfl, rfl, rfl, rfl, rfl, rfl, rfl, rfl, rfl, rfl, rfl, rfl, rfl, fun _ => rfl,
        by simp, by simp⟩

/-! ### The byte index -/

/-- ADVANCE moves the byte index in the DATA-end arm alone (10_state R13). -/
theorem advance_byteIndex {p : Params} {m : Memory} {f : Framer} {a : Symbol × Framer} (h : f.advance p m = .ok a) :
    a.2.byteIndex = if f.phase = .data ∧ f.bitIndex.val = 8 then f.byteIndex + 1 else f.byteIndex := by
  rcases advance_ok h with ⟨hp, rfl⟩ | ⟨h8, hp, -, -, rfl⟩ | ⟨hp, h8, rfl⟩ | ⟨hp, -, rfl⟩ | ⟨hp, -, rfl⟩ | ⟨hp, rfl⟩
  · simp [hp, Framer.startBit]
  · simp [hp, h8.ne]
  · simp [hp, h8, Framer.endByte]
  · simp [hp, Framer.endStream]
  · simp [hp, Framer.nextByte]
  · simp [hp, Framer.stayDone]

/-- Settles O45: FRESET's framer starts at byte 0, ADVANCE raises the index in the DATA-end arm, and nothing else
writes the framer. -/
theorem onlyDataEndMovesTheByteIndex : Obligations.OnlyDataEndMovesTheByteIndex := by
  intro i s t h
  cases exec_next h with
  | init => exact ⟨fun _ => rfl, by simp, by simp⟩
  | writeLen => exact ⟨fun _ => by rw [engage_F]; rfl, by simp, by simp⟩
  | writeMeasure => exact ⟨fun _ => by rw [engage_F]; rfl, by simp, by simp⟩
  | fresetLen => exact ⟨fun _ => rfl, by simp, by simp⟩
  | fresetMeasure => exact ⟨fun _ => rfl, by simp, by simp⟩
  | pollBusy => exact ⟨by simp, by simp, fun _ => rfl⟩
  | pollDone => exact ⟨by simp, by simp, fun _ => rfl⟩
  | start => exact ⟨by simp, by simp, fun _ => rfl⟩
  | stop => exact ⟨by simp, by simp, fun _ => rfl⟩
  | tcycle => exact ⟨by simp, by simp, fun _ => rfl⟩
  | measure => exact ⟨by simp, by simp, fun _ => rfl⟩
  | isr a _ ha =>
    have hbyte := advance_byteIndex ha
    rw [handle_F, hbyte]
    exact ⟨by simp, fun hend => if_pos (by simpa using hend), fun hend => if_neg (by simpa using hend)⟩
  | arm a _ hi ha =>
    have hbyte : (s.returnSymbol a).F.byteIndex = _ := advance_byteIndex ha
    rw [hbyte]
    have harm : i ∈ arms := hi ▸ arm_mem_arms s.F
    have hend : i = .advDataEnd ↔ s.F.phase = .data ∧ s.F.bitIndex.val = 8 := hi ▸ arm_eq_advDataEnd
    refine ⟨fun hfreset => ?_, fun hraise => if_pos ?_, fun hkeep => if_neg ?_⟩
    · rcases hfreset with rfl | ⟨b, n, rfl⟩ | ⟨b, rfl⟩ | ⟨b, n, rfl⟩ | ⟨b, rfl⟩ <;> simp [arms] at harm
    · obtain rfl | ⟨rfl, -⟩ := hraise
      · exact hend.mp rfl
      · simp [arms] at harm
    · rw [← hend]
      rintro rfl
      simp at hkeep

/-! ### The ghost logs -/

theorem engage_withHistory (s : State) (f : Framer) (y : List Symbol) (w : List Level) :
    (s.withHistory y w).engage f = (s.engage f).withHistory y w := by
  unfold State.engage
  split <;> rfl

/-- The handler appends the same to every history. -/
theorem handle_withHistory (s : State) (a : Symbol × Framer) (y : List Symbol) (w : List Level) :
    (s.withHistory y w).handle a = (s.handle a).withHistory (y ++ [a.1]) (w ++ a.1.level?.toList) := by
  obtain ⟨c, f⟩ := a
  cases c
  · rfl
  · rfl
  · simp only [Symbol.level?, Option.toList_none, List.append_nil]
    rfl

/-- What `exec i` appends to the logs from `s` to `t`, and that it appends the same to any other history. -/
def State.LogsAlike (s : State) (i : Instr) (t : State) (y : List Symbol) (w : List Level) : Prop :=
  ∃ dy dw, t.SYM = s.SYM ++ dy ∧ t.W = s.W ++ dw ∧ dw = dy.filterMap Symbol.level? ∧
    (i = .isr → dy.length = 1) ∧ (i ≠ .isr → dy = []) ∧
    exec i (s.withHistory y w) = .next (t.withHistory (y ++ dy) (w ++ dw))

/-- An operation beside the handler appends nothing. -/
theorem logsAlike_of_quiet {s t : State} {i : Instr} {y : List Symbol} {w : List Level} (hisr : i ≠ .isr)
    (hsym : t.SYM = s.SYM) (hw : t.W = s.W) (hc : (s.withHistory y w).Completes i (t.withHistory y w)) :
    s.LogsAlike i t y w :=
  ⟨[], [], by simpa using hsym, by simpa using hw, rfl, fun h => absurd h hisr, fun _ => rfl, by simpa using hc.exec⟩

/-- No condition under which an operation completes looks at the logs. -/
theorem completes_logsAlike {s t : State} {i : Instr} (h : s.Completes i t) (y : List Symbol) (w : List Level) :
    s.LogsAlike i t y w := by
  have write {i : Instr} {f : Framer} (hisr : i ≠ .isr)
      (hc : (s.withHistory y w).Completes i ((s.withHistory y w).engage f)) : s.LogsAlike i (s.engage f) y w := by
    rw [engage_withHistory] at hc
    exact logsAlike_of_quiet hisr (by rw [engage_writes]) (by rw [engage_writes]) hc
  cases h with
  | init hm => exact logsAlike_of_quiet (by simp) rfl rfl (.init hm)
  | writeLen buffer n hm => exact write (by simp) (.writeLen buffer n hm)
  | writeMeasure buffer n hm hn => exact write (by simp) (.writeMeasure buffer n hm hn)
  | pollBusy hm hb => exact logsAlike_of_quiet (by simp) rfl rfl (.pollBusy hm hb)
  | pollDone hm hb => exact logsAlike_of_quiet (by simp) rfl rfl (.pollDone hm hb)
  | start hm => exact logsAlike_of_quiet (by simp) rfl rfl (.start hm)
  | stop hm => exact logsAlike_of_quiet (by simp) rfl rfl (.stop hm)
  | tcycle u hm hisr hu => exact logsAlike_of_quiet (by simp) rfl rfl (.tcycle u hm hisr hu)
  | isr a hisr ha =>
    have hc : (s.withHistory y w).Completes .isr ((s.clearPending.withHistory y w).handle a) := .isr a hisr ha
    rw [handle_withHistory] at hc
    refine ⟨[a.1], a.1.level?.toList, handle_SYM _ a, handle_W _ a, ?_, fun _ => rfl, fun h => absurd rfl h, hc.exec⟩
    obtain ⟨c, f⟩ := a
    cases c <;> rfl
  | arm a hm hi ha =>
    refine logsAlike_of_quiet ?_ rfl rfl (.arm a hm hi ha)
    rintro rfl
    exact absurd (hi ▸ arm_mem_arms s.F) (by decide)
  | fresetLen buffer n hm => exact logsAlike_of_quiet (by simp) rfl rfl (.fresetLen buffer n hm)
  | fresetMeasure buffer n hm hn => exact logsAlike_of_quiet (by simp) rfl rfl (.fresetMeasure buffer n hm hn)
  | measure buffer n hm hn => exact logsAlike_of_quiet (by simp) rfl rfl (.measure buffer n hm hn)

/-- No cause of a fault looks at the logs. -/
theorem State.Faults.withHistory {s : State} {i : Instr} {f : Fault} (h : s.Faults i f) (y : List Symbol)
    (w : List Level) : (s.withHistory y w).Faults i f := by
  cases h with
  | doubleInit hm => exact .doubleInit hm
  | writeLenEarly buffer n hm => exact .writeLenEarly buffer n hm
  | writeMeasureEarly buffer hm => exact .writeMeasureEarly buffer hm
  | writeLenAgain buffer n hm => exact .writeLenAgain buffer n hm
  | writeMeasureAgain buffer hm => exact .writeMeasureAgain buffer hm
  | writeUnterminated buffer hm hn => exact .writeUnterminated buffer hm hn
  | overrun _ hm hisr hu => exact .overrun f hm hisr hu
  | isr _ hisr ha => exact .isr f hisr ha
  | arm _ hm hi ha => exact .arm f hm hi ha
  | fresetUnterminated buffer hm hn => exact .fresetUnterminated buffer hm hn
  | measureUnterminated buffer hm hn => exact .measureUnterminated buffer hm hn

/-- Settles O46: whether an operation completes, faults or is refused is said by conditions that do not speak of the
logs. -/
theorem ghostLogsAreNeverRead : Obligations.GhostLogsAreNeverRead :=
  fun i s y w => ⟨fun _ h => completes_logsAlike (exec_next h) y w, fun _ h => ((exec_fault h).withHistory y w).exec,
    fun r h => (onlyDisabledOperationsAreRefused i (s.withHistory y w) r).mpr
      ((onlyDisabledOperationsAreRefused i s r).mp h)⟩

end Sys2Proof.Machine
end

section
/-! PROOFS of 10_state R30: the block's invariant is that of two modes, stopped and sending, and every step keeps it. -/

namespace Sys2Proof.Machine

/-! ### What a step of the agents or of the outside is -/

/-- Everything an operation of the three agents can do that completes (00_scope R6): the completions of INIT, WRITE,
POLL, TCYCLE and ISR, with operands of their widths. -/
inductive State.AgentMove (s : State) : State → Prop
  | init (hm : s.mc = .powerOn) : s.AgentMove s.initialise
  | write (buffer n : Nat) (hm : s.mc = .ready) (hbuf : buffer < 2 ^ s.params.addrW) (hlen : n < 2 ^ s.params.lenW) :
    s.AgentMove (s.engage (Framer.over buffer n))
  | pollBusy (hm : s.mc = .waiting) (hb : s.C.busy = true) : s.AgentMove s
  | pollDone (hm : s.mc = .waiting) (hb : s.C.busy = false) : s.AgentMove (s.setMc .ready)
  | tcycle (u : Timer) (hm : s.mc ≠ .powerOn) (hisr : s.isrEnabled = false) (hu : s.T.cycle = .ok u) :
    s.AgentMove (s.setTimer u)
  | isr (a : Symbol × Framer) (hisr : s.isrEnabled = true) (ha : s.F.advance s.params s.mem = .ok a) :
    s.AgentMove (s.clearPending.handle a)

theorem arm_isInternal {f : Framer} {i : Instr} (hi : f.arm = i) : isInternal i = true := by
  have all : ∀ j ∈ arms, isInternal j = true := by decide
  exact all i (hi ▸ arm_mem_arms f)

theorem agentMove_of_exec {i : Instr} {s t : State} (hi : isInternal i = false) (hw : i.wf s.params = true)
    (h : exec i s = .next t) : s.AgentMove t := by
  cases exec_next h with
  | init hm => exact .init hm
  | writeLen buffer n hm =>
    obtain ⟨hbuf, hlen⟩ : buffer < 2 ^ s.params.addrW ∧ n < 2 ^ s.params.lenW := by simpa [Instr.wf] using hw
    exact .write buffer n hm hbuf hlen
  | writeMeasure buffer n hm hn =>
    obtain ⟨hlen, haddr⟩ := measureBuffer_bound hn
    exact .write buffer n hm ((Nat.le_add_right _ _).trans_lt haddr) hlen
  | pollBusy hm hb => exact .pollBusy hm hb
  | pollDone hm hb => exact .pollDone hm hb
  | tcycle u hm hisr hu => exact .tcycle u hm hisr hu
  | isr a hisr ha => exact .isr a hisr ha
  | arm a hm harm ha =>
    rw [arm_isInternal harm] at hi
    cases hi
  | start hm => cases hi
  | stop hm => cases hi
  | fresetLen buffer n hm => cases hi
  | fresetMeasure buffer n hm hn => cases hi
  | measure buffer n hm hn => cases hi

/-- What the outside does: it sets the enable, or stores a byte while no `write` is in progress (70_reset R190). -/
def State.OutsideMove (s t : State) : Prop :=
  ∃ q, (∃ on, t = (s.setSchedule q).setGie on) ∨
    (∃ a v, s.mc ≠ .waiting ∧ a < 2 ^ s.params.addrW ∧ t = (s.setSchedule q).setMem (s.mem.write a v))

/-- With nothing offered, a step that completes is an agent's move or the outside's. -/
theorem step_cases {s t : State} (ho : s.offered = none) (h : step s = .next t) :
    (∃ u, s.Rescheduled u ∧ u.AgentMove t) ∨ s.OutsideMove t := by
  obtain ⟨i, u, hf, he⟩ | hf := step_next h
  · obtain ⟨hr, hw, -, hagent⟩ := fetch_run hf
    obtain ⟨-, -, -, -, -, -, -, -, -, hparams, -⟩ := hr.keeps
    exact .inl ⟨u, hr, agentMove_of_exec (hagent ho).1 (hparams ▸ hw) he⟩
  · obtain ⟨-, -, hout⟩ := fetch_moved hf
    exact .inr hout

theorem State.Rescheduled.sameBlock {s t : State} (h : s.Rescheduled t) : s.SameBlock t := by
  obtain ⟨hF, hC, hT, hPIN, hmc, hSYM, hW, -⟩ := h.keeps
  exact ⟨hF, hC, hT, hPIN, hmc, hSYM, hW⟩

theorem State.OutsideMove.sameBlock {s t : State} (h : s.OutsideMove t) : s.SameBlock t ∧ t.params = s.params := by
  obtain ⟨q, ⟨on, rfl⟩ | ⟨a, v, -, -, rfl⟩⟩ := h
  · exact ⟨⟨rfl, rfl, rfl, rfl, rfl, rfl, rfl⟩, rfl⟩
  · exact ⟨⟨rfl, rfl, rfl, rfl, rfl, rfl, rfl⟩, rfl⟩

/-! ### The two modes of the block from INIT on -/

/-- What INIT sets and nothing unsets, with the bounds of the counter and of the framer's operands. -/
structure State.Configured (s : State) : Prop where
  pinDriven : s.PIN.dir = .output
  irqEnabled : s.T.irqEn = true
  periodIsP : s.T.period = s.params.period
  cntBound : s.T.cnt < s.T.period
  bufWidth : s.F.buf < 2 ^ s.params.addrW
  lengthWidth : s.F.length < 2 ^ s.params.lenW

/-- The timer is stopped: nothing is being sent, and the line is high. -/
structure State.Stopped (s : State) : Prop where
  notBusy : s.C.busy = false
  notRunning : s.T.run = false
  cntZero : s.T.cnt = 0
  noRequest : s.T.irqPend = false
  lineHigh : s.PIN.level = .high
  byteIndexBound : s.F.byteIndex ≤ s.F.length
  phase : s.F.phase = .start ∨ (s.F.phase = .done ∧ s.F.byteIndex = s.F.length ∧ s.F.bitIndex = 0)
  finished : s.mc = .waiting → s.F.phase = .done ∧ 1 ≤ s.F.length

/-- A `write` is sending: the timer runs over a framer that has not reached the end of its stream. -/
structure State.Sending (s : State) : Prop where
  waiting : s.mc = .waiting
  busy : s.C.busy = true
  running : s.T.run = true
  engaged : s.F.Engaged
  notDone : s.F.phase ≠ .done
  stopHigh : s.F.phase = .stop → s.PIN.level = .high

/-- From INIT on a state of the invariant is in one of the two modes. -/
theorem State.BlockInv.modes {s : State} (h : s.BlockInv) (hm : s.mc ≠ .powerOn) :
    s.Configured ∧ (s.Stopped ∨ s.Sending) := by
  have r := h.rules hm
  have q := h.support hm
  refine ⟨⟨r.pinDriven, r.irqEnabled, r.periodIsP, q.cntBound, q.bufWidth, q.lengthWidth⟩, ?_⟩
  cases hrun : s.T.run with
  | false =>
    refine .inl ⟨r.busyIsRun.trans hrun, hrun, r.stoppedZero hrun, ?_, r.idleHigh hrun, r.byteIndexBound,
      (q.stoppedPhase hrun).imp_right fun hp => ⟨hp, r.doneIndex hp⟩, fun hw => q.finished hw hrun⟩
    rw [← Bool.not_eq_true]
    intro hpend
    exact absurd (hrun.symm.trans (q.pendingRuns hpend)) (by decide)
  | true =>
    have hbusy : s.C.busy = true := r.busyIsRun.trans hrun
    obtain ⟨hlen, hphase⟩ := r.runningFramer hrun
    have hnotDone : s.F.phase ≠ .done := by
      intro hp
      simp [hp] at hphase
    refine .inr ⟨?_, hbusy, hrun, ⟨hlen, fun hp => r.startIndex hp hrun, r.dataIndex, fun hp => ?_,
      fun hp => absurd hp hnotDone⟩, hnotDone, fun hp => (q.stopHigh hp).1⟩
    · cases hmc : s.mc with
      | powerOn => exact absurd hmc hm
      | ready =>
        rw [r.readyIdle hmc] at hbusy
        cases hbusy
      | waiting => rfl
    · exact ⟨(r.stopIndex hp).1, (r.stopIndex hp).2, (q.stopHigh hp).2⟩

section
variable {s : State}

theorem State.Stopped.r30 (h : s.Stopped) (c : s.Configured) : s.R30 where
  bitIndexBound := Nat.le_of_lt_succ s.F.bitIndex.isLt
  byteIndexBound := h.byteIndexBound
  busyIsRun := h.notBusy.trans h.notRunning.symm
  readyIdle _ := h.notBusy
  stoppedZero _ := h.cntZero
  runningFramer hrun := by simp [h.notRunning] at hrun
  dataIndex hp := by simpa [hp] using h.phase
  startIndex _ hrun := by simp [h.notRunning] at hrun
  stopIndex hp := by simpa [hp] using h.phase
  doneIndex hp := by simpa [hp] using h.phase
  pinDriven := c.pinDriven
  idleHigh _ := h.lineHigh
  irqEnabled := c.irqEnabled
  periodIsP := c.periodIsP

theorem State.Stopped.supporting (h : s.Stopped) (c : s.Configured) (hlegal : s.params.legal = true) :
    s.Supporting where
  pendingRuns hpend := by simp [h.noRequest] at hpend
  stopHigh hp := by simpa [hp] using h.phase
  stoppedPhase _ := h.phase.imp_right And.left
  finished hw _ := h.finished hw
  cntBound := c.cntBound
  bufWidth := c.bufWidth
  lengthWidth := c.lengthWidth
  legal := hlegal

theorem Framer.Engaged.byteIndex_le {f : Framer} (hf : f.Engaged) : f.byteIndex ≤ f.length := by
  cases hp : f.phase with
  | start => exact (hf.start hp).le
  | data => exact (hf.data hp).le
  | stop => exact (hf.stop hp).2.1
  | done => exact (hf.done hp).1.le

theorem State.Sending.r30 (h : s.Sending) (c : s.Configured) : s.R30 where
  bitIndexBound := Nat.le_of_lt_succ s.F.bitIndex.isLt
  byteIndexBound := h.engaged.byteIndex_le
  busyIsRun := h.busy.trans h.running.symm
  readyIdle hready := by simp [h.waiting] at hready
  stoppedZero hrun := by simp [h.running] at hrun
  runningFramer _ := by
    refine ⟨h.engaged.nonempty, ?_⟩
    have hne := h.notDone
    cases hp : s.F.phase <;> simp_all
  dataIndex := h.engaged.data
  startIndex hp _ := h.engaged.start hp
  stopIndex hp := ⟨(h.engaged.stop hp).1, (h.engaged.stop hp).2.1⟩
  doneIndex := h.engaged.done
  pinDriven := c.pinDriven
  idleHigh hrun := by simp [h.running] at hrun
  irqEnabled := c.irqEnabled
  periodIsP := c.periodIsP

theorem State.Sending.supporting (h : s.Sending) (c : s.Configured) (hlegal : s.params.legal = true) :
    s.Supporting where
  pendingRuns _ := h.running
  stopHigh hp := ⟨h.stopHigh hp, (h.engaged.stop hp).2.2⟩
  stoppedPhase hrun := by simp [h.running] at hrun
  finished _ hrun := by simp [h.running] at hrun
  cntBound := c.cntBound
  bufWidth := c.bufWidth
  lengthWidth := c.lengthWidth
  legal := hlegal

/-- Each mode is within the invariant. -/
theorem blockInv_of_modes (hlegal : s.params.legal = true)
    (h : s.mc ≠ .powerOn → s.Configured ∧ (s.Stopped ∨ s.Sending)) : s.BlockInv where
  legal := hlegal
  rules hm := by
    obtain ⟨c, hmode | hmode⟩ := h hm
    · exact hmode.r30 c
    · exact hmode.r30 c
  support hm := by
    obtain ⟨c, hmode | hmode⟩ := h hm
    · exact hmode.supporting c hlegal
    · exact hmode.supporting c hlegal

/-- Between two calls the block is stopped. -/
theorem State.BlockInv.stopped_of_ready (h : s.BlockInv) (hm : s.mc = .ready) : s.Configured ∧ s.Stopped := by
  obtain ⟨c, hmode | hmode⟩ := h.modes (by simp [hm])
  · exact ⟨c, hmode⟩
  · cases hm.symm.trans hmode.waiting

/-- With `busy` false the block is stopped. -/
theorem State.BlockInv.stopped_of_not_busy (h : s.BlockInv) (hm : s.mc ≠ .powerOn) (hb : s.C.busy = false) :
    s.Configured ∧ s.Stopped := by
  obtain ⟨c, hmode | hmode⟩ := h.modes hm
  · exact ⟨c, hmode⟩
  · cases hb.symm.trans hmode.busy

/-- With the timer running a `write` is sending. -/
theorem State.BlockInv.sending_of_running (h : s.BlockInv) (hm : s.mc ≠ .powerOn) (hrun : s.T.run = true) :
    s.Configured ∧ s.Sending := by
  obtain ⟨c, hmode | hmode⟩ := h.modes hm
  · cases hrun.symm.trans hmode.notRunning
  · exact ⟨c, hmode⟩

/-- A request is served only while a `write` is sending. -/
theorem State.BlockInv.sending_of_isrEnabled (h : s.BlockInv) (hisr : s.isrEnabled = true) :
    s.Configured ∧ s.Sending := by
  obtain ⟨hm, hpend, -, -⟩ := isrEnabled_iff.mp hisr
  exact h.sending_of_running hm ((h.support hm).pendingRuns hpend)

theorem State.BlockInv.of_sameBlock {t : State} (h : s.BlockInv) (hb : s.SameBlock t) (hp : t.params = s.params) :
    t.BlockInv := by
  obtain ⟨F, C, T, PIN, mc, SYM, W, mem, gie, params, program, schedule, draws, result, offered⟩ := s
  obtain ⟨F', C', T', PIN', mc', SYM', W', mem', gie', params', program', schedule', draws', result', offered'⟩ := t
  obtain ⟨hF, hC, hT, hPIN, hmc, -, -⟩ := hb
  dsimp only at hF hC hT hPIN hmc hp
  subst hF hC hT hPIN hmc hp
  refine blockInv_of_modes h.legal fun hm => ?_
  obtain ⟨c, hmode⟩ := h.modes hm
  exact ⟨{ c with }, hmode.imp (fun m => { m with }) (fun m => { m with })⟩

end

end Sys2Proof.Machine
end

section
/-! PROOFS of 10_state R30 and 30_encoding R75: every move of the agents keeps the block's invariant, and the logs at the
beginning of the buffer's stream, so every step does. -/

namespace Sys2Proof.Machine

section
variable {s : State}

/-! ### The moves that start, poll and count -/

/-- INIT leaves the block configured and stopped (10_state R32). -/
theorem initialise_stopped (hlegal : s.params.legal = true) : s.initialise.Configured ∧ s.initialise.Stopped := by
  obtain ⟨-, -, -, hperiod, -⟩ := legal_iff.mp hlegal
  exact ⟨⟨rfl, rfl, rfl, hperiod, Nat.mod_lt _ (by positivity), by simp [State.initialise]⟩,
    ⟨rfl, rfl, rfl, rfl, rfl, Nat.le_refl 0, .inl rfl, nofun⟩⟩

/-- An empty WRITE leaves the block stopped. -/
theorem engage_empty_stopped {buffer : Nat} (hm : s.mc = .ready) (c : s.Configured) (hs : s.Stopped)
    (hbuf : buffer < 2 ^ s.params.addrW) :
    (s.engage (Framer.over buffer 0)).Configured ∧ (s.engage (Framer.over buffer 0)).Stopped := by
  rw [engage_zero]
  exact ⟨⟨c.pinDriven, c.irqEnabled, c.periodIsP, c.cntBound, hbuf, Nat.two_pow_pos _⟩,
    ⟨hs.notBusy, hs.notRunning, hs.cntZero, hs.noRequest, hs.lineHigh, Nat.le_refl 0, .inl rfl,
      fun hw => by cases hm.symm.trans hw⟩⟩

/-- A WRITE of at least one byte leaves the block sending. -/
theorem engage_sending {buffer n : Nat} (hlegal : s.params.legal = true) (c : s.Configured) (hn : 1 ≤ n)
    (hbuf : buffer < 2 ^ s.params.addrW) (hlen : n < 2 ^ s.params.lenW) :
    (s.engage (Framer.over buffer n)).Configured ∧ (s.engage (Framer.over buffer n)).Sending := by
  obtain ⟨-, -, -, hperiod, -⟩ := legal_iff.mp hlegal
  rw [engage_pos s (f := Framer.over buffer n) (Nat.ne_of_gt hn)]
  exact ⟨⟨c.pinDriven, c.irqEnabled, c.periodIsP, hperiod.trans_eq c.periodIsP.symm, hbuf, hlen⟩,
    ⟨rfl, rfl, rfl, over_engaged hn, nofun, nofun⟩⟩

/-- The POLL that returns leaves the block stopped. -/
theorem setMc_ready_stopped (c : s.Configured) (hs : s.Stopped) :
    (s.setMc .ready).Configured ∧ (s.setMc .ready).Stopped :=
  ⟨{ c with }, { hs with finished := nofun }⟩

/-- A cycle of the timer keeps the mode: a stopped timer keeps everything, and a running one keeps the counter below the
period. -/
theorem setTimer_modes {u : Timer} (c : s.Configured) (hmode : s.Stopped ∨ s.Sending) (hu : s.T.cycle = .ok u) :
    (s.setTimer u).Configured ∧ ((s.setTimer u).Stopped ∨ (s.setTimer u).Sending) := by
  have hrunning (hrun : s.T.run = true) : s.Sending :=
    hmode.resolve_left fun hs => by cases hrun.symm.trans hs.notRunning
  have hcnt := c.cntBound
  rcases cycle_ok hu with ⟨-, rfl⟩ | ⟨hrun, -, -, rfl⟩ | ⟨hrun, hne, rfl⟩
  · exact ⟨c, hmode⟩
  · exact ⟨{ c with cntBound := Nat.zero_lt_of_lt hcnt }, .inr { hrunning hrun with running := hrun }⟩
  · exact ⟨{ c with cntBound := lt_of_le_of_ne hcnt hne }, .inr { hrunning hrun with running := hrun }⟩

/-! ### The handler -/

section
variable {p : Params} {m : Memory} {f : Framer} {a : Symbol × Framer}

/-- The framer is at the end of its stream exactly when END was answered (40_framer R90). -/
theorem advance_done_iff (h : f.advance p m = .ok a) : a.2.phase = .done ↔ a.1 = .endOfStream := by
  rcases advance_ok h with ⟨hp, rfl⟩ | ⟨h8, hp, -, -, rfl⟩ | ⟨hp, -, rfl⟩ | ⟨hp, -, rfl⟩ | ⟨hp, -, rfl⟩ | ⟨hp, rfl⟩
  · simp [Framer.startBit]
  · simp [hp, bitSymbol_ne_end]
  · simp [Framer.endByte]
  · simp [Framer.endStream]
  · simp [Framer.nextByte]
  · simp [Framer.stayDone, hp]

/-- STOP is entered with the first framing bit, which is ONE. -/
theorem advance_stop_symbol (h : f.advance p m = .ok a) (hstop : a.2.phase = .stop) : a.1 = .one := by
  rcases advance_ok h with ⟨hp, rfl⟩ | ⟨h8, hp, -, -, rfl⟩ | ⟨hp, -, rfl⟩ | ⟨hp, -, rfl⟩ | ⟨hp, -, rfl⟩ | ⟨hp, rfl⟩
  · cases hstop
  · cases hp.symm.trans hstop
  · rfl
  · cases hstop
  · cases hstop
  · cases hp.symm.trans hstop

end

/-- A symbol that is not END leaves the timer and `busy` alone. -/
theorem handle_of_level (s : State) {a : Symbol × Framer} (hne : a.1 ≠ .endOfStream) :
    (s.handle a).T = s.T ∧ (s.handle a).C = s.C := by
  rcases handle_cases s a with ⟨-, h⟩ | ⟨-, h⟩ | ⟨hend, -⟩
  · rw [h]
    exact ⟨rfl, rfl⟩
  · rw [h]
    exact ⟨rfl, rfl⟩
  · exact absurd hend hne

/-- The handler keeps what INIT configured, and the counter below the period. -/
theorem isr_configured {a : Symbol × Framer} (c : s.Configured) (ha : s.F.advance s.params s.mem = .ok a) :
    (s.clearPending.handle a).Configured := by
  obtain ⟨hbuf, hlen⟩ := advance_keeps_buffer ha
  have hcnt : (s.clearPending.handle a).T.cnt < s.T.period := by
    by_cases hend : a.1 = .endOfStream
    · rw [handle_of_end _ hend]
      exact Nat.zero_lt_of_lt c.cntBound
    · rw [(handle_of_level s.clearPending hend).1]
      exact c.cntBound
  rw [handle_writes]
  exact ⟨c.pinDriven, c.irqEnabled, c.periodIsP, hcnt, hbuf.trans_lt c.bufWidth, hlen.trans_lt c.lengthWidth⟩

/-- The tick that obtains END leaves the block stopped: the line stands high from the last framing bit. -/
theorem isr_end_stopped {a : Symbol × Framer} (hs : s.Sending) (ha : s.F.advance s.params s.mem = .ok a)
    (hend : a.1 = .endOfStream) : (s.clearPending.handle a).Stopped := by
  have hf : a.2.Engaged := advance_engaged hs.engaged ha
  have hdone : a.2.phase = .done := (advance_done_iff ha).mpr hend
  have hstop : s.F.phase = .stop := (advance_end_phase ha hend).resolve_right hs.notDone
  rw [handle_of_end _ hend]
  exact ⟨rfl, rfl, rfl, rfl, hs.stopHigh hstop, hf.byteIndex_le, .inr ⟨hdone, hf.done hdone⟩,
    fun _ => ⟨hdone, hf.nonempty⟩⟩

/-- Every other tick leaves the block sending. -/
theorem isr_level_sending {a : Symbol × Framer} (hs : s.Sending) (ha : s.F.advance s.params s.mem = .ok a)
    (hne : a.1 ≠ .endOfStream) : (s.clearPending.handle a).Sending := by
  obtain ⟨hT, hC⟩ := handle_of_level s.clearPending hne
  refine ⟨(handle_mc _ a).trans hs.waiting, hC ▸ hs.busy, hT ▸ hs.running, ?_, ?_, ?_⟩
  · rw [handle_F]
    exact advance_engaged hs.engaged ha
  · rw [handle_F]
    exact mt (advance_done_iff ha).mp hne
  · rw [handle_F, handle_level]
    intro hstop
    rw [advance_stop_symbol ha hstop]
    rfl

/-! ### Every step -/

theorem State.AgentMove.blockInv {t : State} (h : s.AgentMove t) (hinv : s.BlockInv) : t.BlockInv := by
  cases h with
  | init hm =>
    obtain ⟨c, hs⟩ := initialise_stopped hinv.legal
    exact blockInv_of_modes hinv.legal fun _ => ⟨c, .inl hs⟩
  | write buffer n hm hbuf hlen =>
    obtain ⟨c, hs⟩ := hinv.stopped_of_ready hm
    have hlegal : (s.engage (Framer.over buffer n)).params.legal = true := by
      rw [engage_writes]
      exact hinv.legal
    refine blockInv_of_modes hlegal fun _ => ?_
    rcases Nat.eq_zero_or_pos n with rfl | hn
    · exact (engage_empty_stopped hm c hs hbuf).imp_right .inl
    · exact (engage_sending hinv.legal c hn hbuf hlen).imp_right .inr
  | pollBusy hm hb => exact hinv
  | pollDone hm hb =>
    obtain ⟨c, hs⟩ := hinv.stopped_of_not_busy (by simp [hm]) hb
    exact blockInv_of_modes hinv.legal fun _ => (setMc_ready_stopped c hs).imp_right .inl
  | tcycle u hm hisr hu =>
    obtain ⟨c, hmode⟩ := hinv.modes hm
    exact blockInv_of_modes hinv.legal fun _ => setTimer_modes c hmode hu
  | isr a hisr ha =>
    obtain ⟨c, hs⟩ := hinv.sending_of_isrEnabled hisr
    have hlegal : (s.clearPending.handle a).params.legal = true := by
      rw [handle_writes]
      exact hinv.legal
    refine blockInv_of_modes hlegal fun _ => ⟨isr_configured c ha, ?_⟩
    by_cases hend : a.1 = .endOfStream
    · exact .inl (isr_end_stopped hs ha hend)
    · exact .inr (isr_level_sending hs ha hend)

end

/-- Settles O54: a step is a move of an agent, which keeps the invariant, or of the outside, which leaves the block
alone. -/
theorem everyStepKeepsTheBlockInvariant : Obligations.EveryStepKeepsTheBlockInvariant := by
  intro s t hinv ho h
  obtain ⟨u, hr, hmove⟩ | hout := step_cases ho h
  · obtain ⟨-, -, -, -, -, -, -, -, -, hparams, -⟩ := hr.keeps
    exact hmove.blockInv (hinv.of_sameBlock hr.sameBlock hparams)
  · obtain ⟨hblock, hparams⟩ := hout.sameBlock
    exact hinv.of_sameBlock hblock hparams

/-- Settles O53: at reset nothing is claimed of the block before INIT, memory is empty and no `write` is in progress;
INIT leaves the block stopped. -/
theorem resetAndInitMeetTheInvariants : Obligations.ResetAndInitMeetTheInvariants := by
  refine ⟨blockInv_of_modes resetParams_legal fun hm => absurd rfl hm, ⟨State.reset_mem_wf, State.reset_mem_within _⟩,
    nofun, fun s t hlegal h => ?_⟩
  obtain ⟨-, rfl⟩ := execInit_next h
  obtain ⟨c, hs⟩ := initialise_stopped hlegal
  exact ⟨rfl, hs.r30 c, hs.supporting c hlegal⟩

/-! ### What a `write` has sent -/

/-- After the logs `w` and `y`, the logs hold the beginning of the buffer's stream up to the framer's position
(30_encoding R75, 40_framer R91). -/
def State.Sent (s : State) (w : List Level) (y : List Symbol) : Prop :=
  s.W = w ++ (wireLevels s.payload).take s.F.pos ∧ s.SYM = y ++ (wireSymbols s.payload).take s.F.pos

theorem State.Sent.of_sameBlock {s t : State} {w : List Level} {y : List Symbol} (h : s.Sent w y) (hb : s.SameBlock t)
    (hmem : t.mem = s.mem) : t.Sent w y := by
  obtain ⟨hF, -, -, -, -, hSYM, hW⟩ := hb
  obtain ⟨hlevels, hsymbols⟩ := h
  simp only [State.Sent, State.payload, hF, hSYM, hW, hmem]
  exact ⟨hlevels, hsymbols⟩

/-- Nothing is sent before the first tick. -/
theorem sent_of_pos_zero {s : State} (hpos : s.F.pos = 0) : s.Sent s.W s.SYM := by
  simp [State.Sent, hpos]

/-- A tick appends the next symbol of the stream and, but for END, its level. -/
theorem State.Sending.sent_isr {s : State} {a : Symbol × Framer} {w : List Level} {y : List Symbol} (hs : s.Sending)
    (ha : s.F.advance s.params s.mem = .ok a) (h : s.Sent w y) : (s.clearPending.handle a).Sent w y := by
  obtain ⟨hlevels, hsymbols⟩ := h
  obtain ⟨hbuf, hlen⟩ := advance_keeps_buffer ha
  have hpos : a.2.pos = s.F.pos + 1 := advance_pos_succ hs.engaged hs.notDone ha
  have hpayload : (s.clearPending.handle a).payload = s.payload := by
    rw [State.payload, handle_mem, handle_F, hbuf, hlen]
    rfl
  have hnext : (wireSymbols s.payload).take (s.F.pos + 1) = (wireSymbols s.payload).take s.F.pos ++ [a.1] := by
    rw [advance_symbol hs.engaged ha]
    exact wireSymbols_take_succ _ _ _ _ (hs.engaged.pos_lt hs.notDone)
  constructor
  · have hlevel : (wireLevels s.payload).take (s.F.pos + 1) =
        (wireLevels s.payload).take s.F.pos ++ a.1.level?.toList := by
      rw [← wireLevels_take, hnext, List.filterMap_append, wireLevels_take]
      cases ha1 : a.1.level? <;> simp [ha1]
    rw [handle_W, handle_F, hpayload, hpos, hlevel, ← List.append_assoc]
    exact congrArg (· ++ a.1.level?.toList) hlevels
  · rw [handle_SYM, handle_F, hpayload, hpos, hnext, ← List.append_assoc]
    exact congrArg (· ++ [a.1]) hsymbols

theorem State.AgentMove.streamInv {s t : State} (h : s.AgentMove t) (hinv : s.BlockInv) (hstream : s.StreamInv) :
    t.StreamInv := by
  cases h with
  | init hm => nofun
  | write buffer n hm hbuf hlen =>
    intro _
    exact ⟨_, _, sent_of_pos_zero (by rw [engage_F]; rfl)⟩
  | pollBusy hm hb => exact hstream
  | pollDone hm hb => nofun
  | tcycle u hm hisr hu => exact hstream
  | isr a hisr ha =>
    intro _
    obtain ⟨-, hs⟩ := hinv.sending_of_isrEnabled hisr
    obtain ⟨w, y, hsent⟩ := hstream hs.waiting
    exact ⟨w, y, hs.sent_isr ha hsent⟩

theorem State.StreamInv.of_sameBlock {s t : State} (h : s.StreamInv) (hb : s.SameBlock t) (hmem : t.mem = s.mem) :
    t.StreamInv := by
  intro hm
  have hmc : t.mc = s.mc := by
    obtain ⟨-, -, -, -, hmc, -, -⟩ := hb
    exact hmc
  obtain ⟨w, y, hsent⟩ := h (hmc ▸ hm)
  exact ⟨w, y, State.Sent.of_sameBlock hsent hb hmem⟩

/-- Settles O56: a WRITE starts at position 0, a tick sends the next symbol, and no other move inside a `write`
touches what the stream is made of. -/
theorem everyStepKeepsTheStreamInvariant : Obligations.EveryStepKeepsTheStreamInvariant := by
  intro s t hinv ho hstream h
  obtain ⟨u, hr, hmove⟩ | hout := step_cases ho h
  · obtain ⟨-, -, -, -, -, -, -, hmem, -, hparams, -⟩ := hr.keeps
    exact hmove.streamInv (hinv.of_sameBlock hr.sameBlock hparams) (hstream.of_sameBlock hr.sameBlock hmem)
  · obtain ⟨q, ⟨on, rfl⟩ | ⟨x, v, hm, -, rfl⟩⟩ := hout
    · exact hstream
    · exact fun hw => absurd hw hm

end Sys2Proof.Machine
end

section
/-! PROOFS of what the machine does next (00_scope R6, 42_timer_handler R121, 70_reset R170 to R190): the handler
first, then the offered event, then the next move, and what each may change. -/

namespace Sys2Proof.Machine

theorem State.Rescheduled.isrEnabled {s u : State} (h : s.Rescheduled u) : u.isrEnabled = s.isrEnabled := by
  obtain ⟨-, -, hT, -, hmc, -, -, -, hgie, -⟩ := h.keeps
  simp only [State.isrEnabled, State.irq, hT, hmc, hgie]

/-- A step that faults ran an operation that faults. -/
theorem step_fault {s : State} {f : Fault} (h : step s = .fault f) :
    ∃ i u, s.fetch = .run i u ∧ exec i u = .fault f := by
  unfold step at h
  split at h
  · next i u hf => exact ⟨i, u, hf, h⟩
  · cases h
  · cases h

/-- Only a timer at the end of its period, with its request pending, overruns (60_exceptions R147). -/
theorem exec_overrun {i : Instr} {s : State} (h : exec i s = .fault .timerOverrun) :
    i = .tcycle ∧ s.T.run = true ∧ s.T.cnt + 1 = s.T.period ∧ s.T.irqPend = true := by
  simpa [Fault.code] using faultsHaveOnlyTheirCauses i s _ h

/-- A host's call completes outside a `write` only (41_controller R109). -/
theorem hostCall_not_waiting {i : Instr} {s t : State} (hi : isHostCall i = true) (h : exec i s = .next t) :
    s.mc ≠ .waiting := by
  cases exec_next h with
  | init hm => simp [hm]
  | writeLen buffer n hm => simp [hm]
  | writeMeasure buffer n hm hn => simp [hm]
  | arm a hm harm ha => cases (arm_isInternal harm).symm.trans (isInternal_of_isHostCall hi)
  | pollBusy hm hb => cases hi
  | pollDone hm hb => cases hi
  | start hm => cases hi
  | stop hm => cases hi
  | tcycle u hm hisr hu => cases hi
  | isr a hisr ha => cases hi
  | fresetLen buffer n hm => cases hi
  | fresetMeasure buffer n hm hn => cases hi
  | measure buffer n hm hn => cases hi

/-! ### The handler first -/

/-- Settles O35: a request to be served decides what is fetched. -/
theorem handlerRunsBeforeEverything : Obligations.HandlerRunsBeforeEverything := by
  intro s hisr
  have hf : s.fetch = .run .isr s := fetch_isr hisr
  refine ⟨step_of_run hf, fun i u h => ?_, fun u h => ?_⟩
  · cases hf.symm.trans h
    exact ⟨rfl, rfl⟩
  · cases hf.symm.trans h

/-- With interrupts enabled, what runs beside the handler finds no request. -/
theorem noRequest_of_fetch {s u : State} {i : Instr} (hinv : s.BlockInv) (hm : s.mc ≠ .powerOn) (hgie : s.gie = true)
    (hf : s.fetch = .run i u) (hi : i ≠ .isr) : s.T.irqPend = false := by
  obtain ⟨c, -⟩ := hinv.modes hm
  obtain ⟨-, -, hfirst, -⟩ := fetch_run hf
  rw [← Bool.not_eq_true]
  exact fun hpend => hi (hfirst (isrEnabled_iff.mpr ⟨hm, hpend, c.irqEnabled, hgie⟩))

/-- Settles O36: an overrun would be a cycle of the timer that finds its request pending. -/
theorem noOverrunWhileInterruptsAreEnabled : Obligations.NoOverrunWhileInterruptsAreEnabled := by
  intro s hinv hm hgie
  refine ⟨fun i u hf hi => noRequest_of_fetch hinv hm hgie hf hi, fun h => ?_⟩
  obtain ⟨i, u, hf, he⟩ := step_fault h
  obtain ⟨rfl, -, -, hpend⟩ := exec_overrun he
  obtain ⟨hr, -⟩ := fetch_run hf
  obtain ⟨-, -, hT, -⟩ := hr.keeps
  rw [hT, noRequest_of_fetch hinv hm hgie hf (by decide)] at hpend
  cases hpend

/-! ### What is fetched -/

section
variable {s : State}

theorem mainMove_of_waiting (hm : s.mc = .waiting) : s.mainMove = .run .poll s := by
  simp [State.mainMove, hm]

theorem mainMove_of_not_waiting (hm : s.mc ≠ .waiting) : s.mainMove = s.nextCall := by
  cases hc : s.mc <;> simp_all [State.mainMove]

theorem runCall_of_decode {e : Event} {i : Instr} (hd : decode e = .ok i) (hw : i.wf s.params = true)
    (hi : isHostCall i = true) : s.runCall e = .run i s := by
  simp [State.runCall, runEvent_of_decode hd hw, hi]

theorem nextCall_of_cons {e : Event} {calls : List Event} {i : Instr} (hp : s.program = e :: calls)
    (hd : decode e = .ok i) (hw : i.wf s.params = true) (hi : isHostCall i = true) :
    s.nextCall = .run i (s.setProgram calls) := by
  simp only [State.nextCall, hp]
  exact runCall_of_decode (s := s.setProgram calls) hd hw hi

end

/-- Settles O49: the offered event, the timer's move, the main context's move inside and outside a `write`, and the
free move with nothing to call. -/
theorem stepRunsTheDecodedOperation : Obligations.StepRunsTheDecodedOperation := by
  intro s hisr
  refine ⟨fun e i ho hd hw => step_of_run ?_, fun rest ho hs => step_of_run ?_, fun rest ho hs hm => step_of_run ?_,
    fun rest e i calls ho hs hm hp hd hw hi => step_of_run ?_, fun ho hs hm hp => step_of_run ?_⟩
  · rw [fetch_offered hisr ho]
    exact runEvent_of_decode (s := s.setOffered none) hd hw
  · exact fetch_scheduled hisr ho hs
  · rw [fetch_scheduled hisr ho hs]
    exact mainMove_of_waiting (s := s.setSchedule rest) hm
  · rw [fetch_scheduled hisr ho hs]
    exact (mainMove_of_not_waiting (s := s.setSchedule rest) hm).trans
      (nextCall_of_cons (s := s.setSchedule rest) hp hd hw hi)
  · rw [fetch_free hisr ho hs]
    simp [State.freeMove, hm, hp]

/-- Settles O50: what runs is well formed and not internal, and neither an operation nor the outside offers an event. -/
theorem agentsRunOnlyTheirOperations : Obligations.AgentsRunOnlyTheirOperations := by
  intro s ho
  refine ⟨fun i u hf => ?_, fun t h => ?_⟩
  · obtain ⟨-, hw, -, hagent⟩ := fetch_run hf
    exact ⟨(hagent ho).1, hw⟩
  · obtain ⟨i, u, hf, he⟩ | hf := step_next h
    · obtain ⟨-, -, -, hagent⟩ := fetch_run hf
      obtain ⟨-, -, -, -, -, hoffered⟩ := exec_sameEnvironment he
      exact hoffered.trans (hagent ho).2
    · obtain ⟨-, -, q, ⟨on, rfl⟩ | ⟨a, v, -, -, rfl⟩⟩ := fetch_moved hf
      · exact ho
      · exact ho

/-! ### The host's memory -/

/-- Settles O51: the store is the next move, and memory reads as written. -/
theorem hostStoreChangesOneByteOutsideWrite : Obligations.HostStoreChangesOneByteOutsideWrite := by
  intro s a v rest hmem hisr ho hs
  have hf : s.fetch = (s.setSchedule rest).hostStore a v := fetch_scheduled hisr ho hs
  refine ⟨fun hm => step_of_stop ?_, fun hm ha => ⟨s.mem.write a v, step_of_moved ?_,
    Memory.write_wf a v hmem.canonical, Memory.read_write_same a v hmem.canonical,
    fun x hx => Memory.read_write_other s.mem v hx.symm⟩⟩
  · rw [hf]
    simp [State.hostStore, hm]
  · rw [hf]
    simp [State.hostStore, hm, ha]
    rfl

/-- Settles O55: no operation writes memory, and the host writes inside the address space. -/
theorem everyStepKeepsMemoryCanonical : Obligations.EveryStepKeepsMemoryCanonical := by
  intro s t hinv h
  obtain ⟨i, u, hf, he⟩ | hf := step_next h
  · obtain ⟨hr, -⟩ := fetch_run hf
    obtain ⟨-, -, -, -, -, -, -, hmemu, -, hparamsu, -⟩ := hr.keeps
    obtain ⟨hmem, -, hparams, -⟩ := exec_sameEnvironment he
    rw [hmemu] at hmem
    rw [hparamsu] at hparams
    exact ⟨⟨by rw [hmem]; exact hinv.canonical, by rw [hmem, hparams]; exact hinv.inside⟩, hparams⟩
  · obtain ⟨-, -, q, ⟨on, rfl⟩ | ⟨a, v, -, ha, rfl⟩⟩ := fetch_moved hf
    · exact ⟨⟨hinv.canonical, hinv.inside⟩, rfl⟩
    · exact ⟨⟨Memory.write_wf a v hinv.canonical, Memory.write_within v ha hinv.inside⟩, rfl⟩

/-! ### Power-on -/

/-- At power-on nothing but INIT completes (70_reset R170). -/
theorem completes_powerOn {s t : State} {i : Instr} (h : s.Completes i t) (hm : s.mc = .powerOn) : i = .init := by
  cases h with
  | init _ => rfl
  | isr a hisr ha => exact absurd hm (isrEnabled_iff.mp hisr).1
  | _ => simp_all

/-- At power-on every operation but INIT and WRITE is refused by name. -/
theorem exec_refused_powerOn {s : State} {i : Instr} (hm : s.mc = .powerOn) (hinit : i ≠ .init)
    (hlen : ∀ b n, i ≠ .writeLen b n) (hmeasure : ∀ b, i ≠ .writeMeasure b) :
    exec i s = .refused (.notEnabled i.mnemonic) := by
  refine (onlyDisabledOperationsAreRefused i s _).mpr ⟨rfl, ?_⟩
  have hisr : s.isrEnabled = false := by simp [State.isrEnabled, hm]
  cases i with
  | init => exact absurd rfl hinit
  | writeLen buffer n => exact absurd rfl (hlen buffer n)
  | writeMeasure buffer => exact absurd rfl (hmeasure buffer)
  | _ => simp [hm, hisr, isInternal]

/-- Settles O52: INIT completes, a WRITE faults, the rest is refused, and what a step runs is an operation at
power-on. -/
theorem powerOnAllowsOnlyInit : Obligations.PowerOnAllowsOnlyInit := by
  refine ⟨⟨rfl, rfl, rfl⟩, fun s hm => ⟨⟨_, (State.Completes.init hm).exec, rfl⟩, fun b n =>
    ⟨(State.Faults.writeLenEarly b n hm).exec, (State.Faults.writeMeasureEarly b hm).exec⟩,
    fun i hinit hlen hmeasure => exec_refused_powerOn hm hinit hlen hmeasure, fun t h => ?_, fun ho hs hp => ?_⟩⟩
  · obtain ⟨i, u, hf, he⟩ | hf := step_next h
    · obtain ⟨hr, -⟩ := fetch_run hf
      obtain ⟨-, -, -, -, hmc, -⟩ := hr.keeps
      obtain rfl := completes_powerOn (exec_next he) (hmc.trans hm)
      exact .inr ⟨u, hr, he⟩
    · obtain ⟨-, -, hout⟩ := fetch_moved hf
      obtain ⟨hblock, -⟩ := State.OutsideMove.sameBlock hout
      exact .inl hblock
  · refine step_of_stop ?_
    rw [fetch_free (by simp [State.isrEnabled, hm]) ho hs]
    simp [State.freeMove, State.mainMove, State.nextCall, hm, hp]

/-! ### Who may change the block -/

/-- Settles O59: what a step runs is an agent's operation; a second caller's call is a host's call inside a `write`,
which does not complete there. -/
theorem onlyTheAgentsChangeTheBlock : Obligations.OnlyTheAgentsChangeTheBlock := by
  intro s ho
  refine ⟨fun t h => ?_, fun e rest hisr hs => ?_⟩
  · obtain ⟨i, u, hf, he⟩ | hf := step_next h
    · obtain ⟨hr, -, -, hagent⟩ := fetch_run hf
      exact .inr ⟨i, u, (hagent ho).1, hr, he⟩
    · obtain ⟨-, -, hout⟩ := fetch_moved hf
      obtain ⟨hblock, -⟩ := State.OutsideMove.sameBlock hout
      exact .inl hblock
  · have hfetch : s.fetch = (s.setSchedule rest).secondCall e := fetch_scheduled hisr ho hs
    refine ⟨fun t h => ?_, fun hm => step_of_stop ?_, fun i hm hd hw => ?_⟩
    · obtain ⟨i, u, hf, he⟩ | hf := step_next h
      · obtain ⟨hm, -, -, hi, rfl⟩ := secondCall_run (hfetch.symm.trans hf)
        exact hostCall_not_waiting hi he hm
      · exact secondCall_not_moved (hfetch.symm.trans hf)
    · rw [hfetch]
      simp [State.secondCall, hm]
    · have hrun (hi : isHostCall i = true) : step s = exec i (s.setSchedule rest) := by
        refine step_of_run (hfetch.trans ((if_pos hm).trans ?_))
        exact runCall_of_decode (s := s.setSchedule rest) hd hw hi
      refine ⟨?_, ?_⟩
      · rintro rfl
        exact (hrun rfl).trans (State.Faults.doubleInit (s := s.setSchedule rest) (by simp [hm])).exec
      · rintro (⟨b, n, rfl⟩ | ⟨b, rfl⟩)
        · exact (hrun rfl).trans (State.Faults.writeLenAgain (s := s.setSchedule rest) b n hm).exec
        · exact (hrun rfl).trans (State.Faults.writeMeasureAgain (s := s.setSchedule rest) b hm).exec

end Sys2Proof.Machine
end

section
/-! PROOFS of 41_controller R108 to R111 and 42_timer_handler R129: `busy`, the contract of `write`, and the stopped
timer. -/

namespace Sys2Proof.Machine

section
variable {s t : State}

theorem handle_end_busy {a : Symbol × Framer} (hend : a.1 = .endOfStream) : (s.handle a).C.busy = false := by
  rw [handle_of_end s hend]
  rfl

/-! ### `busy` -/

/-- Only a non-empty WRITE raises `busy`. -/
theorem State.AgentMove.busy_rises (h : s.AgentMove t) (hlow : s.C.busy = false) (hhigh : t.C.busy = true) :
    s.mc = .ready ∧ t.mc = .waiting ∧ t.T.run = true ∧ t.T.cnt = 0 ∧ 1 ≤ t.F.length ∧ t.F.phase = .start := by
  cases h with
  | init hm => cases hhigh
  | write buffer n hm hbuf hlen =>
    rcases Nat.eq_zero_or_pos n with rfl | hn
    · cases hlow.symm.trans hhigh
    · rw [engage_pos s (f := Framer.over buffer n) (Nat.ne_of_gt hn)]
      exact ⟨hm, rfl, rfl, rfl, hn, rfl⟩
  | pollBusy hm hb => cases hlow.symm.trans hb
  | pollDone hm hb => cases hb.symm.trans hhigh
  | tcycle u hm hisr hu => cases hlow.symm.trans hhigh
  | isr a hisr ha =>
    by_cases hend : a.1 = .endOfStream
    · cases (handle_end_busy hend).symm.trans hhigh
    · rw [(handle_of_level _ hend).2] at hhigh
      cases hlow.symm.trans hhigh

/-- From INIT on only the handler clears `busy`, on END. -/
theorem State.AgentMove.busy_falls (h : s.AgentMove t) (hinit : s.mc ≠ .powerOn) (hhigh : s.C.busy = true)
    (hlow : t.C.busy = false) :
    s.isrEnabled = true ∧ t.SYM = s.SYM ++ [.endOfStream] ∧ t.W = s.W ∧ t.T.run = false ∧ t.mc = s.mc := by
  cases h with
  | init hm => exact absurd hm hinit
  | write buffer n hm hbuf hlen =>
    rcases Nat.eq_zero_or_pos n with rfl | hn
    · cases hhigh.symm.trans hlow
    · rw [engage_pos s (f := Framer.over buffer n) (Nat.ne_of_gt hn)] at hlow
      cases hlow
  | pollBusy hm hb => cases hb.symm.trans hlow
  | pollDone hm hb => cases hhigh.symm.trans hb
  | tcycle u hm hisr hu => cases hhigh.symm.trans hlow
  | isr a hisr ha =>
    by_cases hend : a.1 = .endOfStream
    · rw [handle_of_end _ hend]
      exact ⟨hisr, rfl, rfl, rfl, rfl⟩
    · rw [(handle_of_level _ hend).2] at hlow
      cases hhigh.symm.trans hlow

/-! ### Inside a `write` -/

/-- A move inside a `write` keeps the buffer, the length and memory, and leaves it by the POLL that finds `busy`
false. -/
theorem State.AgentMove.of_waiting (h : s.AgentMove t) (hw : s.mc = .waiting) :
    t.F.buf = s.F.buf ∧ t.F.length = s.F.length ∧ t.mem = s.mem ∧
      (t.mc = .waiting ∨ (t.mc = .ready ∧ s.C.busy = false ∧ t = s.setMc .ready)) := by
  cases h with
  | init hm => cases hm.symm.trans hw
  | write buffer n hm hbuf hlen => cases hm.symm.trans hw
  | pollBusy hm hb => exact ⟨rfl, rfl, rfl, .inl hw⟩
  | pollDone hm hb => exact ⟨rfl, rfl, rfl, .inr ⟨rfl, hb, rfl⟩⟩
  | tcycle u hm hisr hu => exact ⟨rfl, rfl, rfl, .inl hw⟩
  | isr a hisr ha =>
    obtain ⟨hbuf, hlen⟩ := advance_keeps_buffer ha
    rw [handle_writes]
    exact ⟨hbuf, hlen, rfl, .inl hw⟩

/-- With no request to serve, a move inside a busy `write` touches nothing but the timer. -/
theorem State.AgentMove.of_masked (h : s.AgentMove t) (hw : s.mc = .waiting) (hb : s.C.busy = true)
    (hisr : s.isrEnabled = false) :
    t.C.busy = true ∧ t.mc = .waiting ∧ t.F = s.F ∧ t.PIN = s.PIN ∧ t.W = s.W ∧ t.SYM = s.SYM := by
  cases h with
  | init hm => cases hm.symm.trans hw
  | write buffer n hm hbuf hlen => cases hm.symm.trans hw
  | pollBusy hm _ => exact ⟨hb, hw, rfl, rfl, rfl, rfl⟩
  | pollDone hm hdone => cases hb.symm.trans hdone
  | tcycle u hm _ hu => exact ⟨hb, hw, rfl, rfl, rfl, rfl⟩
  | isr a hserved ha => cases hisr.symm.trans hserved

/-- The outside moves no element of the block, and memory only while no `write` is in progress. -/
theorem State.OutsideMove.mem_of_waiting (h : s.OutsideMove t) (hw : s.mc = .waiting) : t.mem = s.mem := by
  obtain ⟨q, ⟨on, rfl⟩ | ⟨a, v, hm, -, -⟩⟩ := h
  · rfl
  · exact absurd hw hm

end

/-- Settles O27: the moves that raise and clear `busy`; the outside does neither. -/
theorem busyRisesInWriteAndFallsOnEnd : Obligations.BusyRisesInWriteAndFallsOnEnd := by
  intro s t hinit ho h
  obtain ⟨u, hr, hmove⟩ | hout := step_cases ho h
  · obtain ⟨-, hC, -, -, hmc, hSYM, hW, -⟩ := hr.keeps
    rw [← hC, ← hmc, ← hSYM, ← hW, ← hr.isrEnabled]
    exact ⟨hmove.busy_rises, hmove.busy_falls (hmc ▸ hinit)⟩
  · obtain ⟨⟨-, hC, -⟩, -⟩ := hout.sameBlock
    rw [hC]
    exact ⟨fun hlow hhigh => absurd (hlow.symm.trans hhigh) (by decide),
      fun hhigh hlow => absurd (hhigh.symm.trans hlow) (by decide)⟩

/-- Settles O28: a move inside a `write` keeps what it sends, and no host's call completes there. -/
theorem writeCannotBeAborted : Obligations.WriteCannotBeAborted := by
  intro s t hw ho h
  have hcall (i : Instr) (hi : isHostCall i = true) (u : State) (he : exec i s = .next u) : False :=
    hostCall_not_waiting hi he hw
  obtain ⟨u, hr, hmove⟩ | hout := step_cases ho h
  · obtain ⟨hF, hC, -, -, hmc, -, -, hmem, -⟩ := hr.keeps
    obtain ⟨hbuf, hlen, hmem', hmode⟩ := hmove.of_waiting (hmc.trans hw)
    refine ⟨hbuf.trans (congrArg Framer.buf hF), hlen.trans (congrArg Framer.length hF), hmem'.trans hmem, ?_, hcall⟩
    refine hmode.imp_right ?_
    rintro ⟨hready, hb, rfl⟩
    exact ⟨hready, hC ▸ hb, hb⟩
  · obtain ⟨⟨hF, -, -, -, hmc, -, -⟩, -⟩ := hout.sameBlock
    exact ⟨congrArg Framer.buf hF, congrArg Framer.length hF, hout.mem_of_waiting hw, .inl (hmc.trans hw), hcall⟩

/-- Settles O37: with interrupts masked no request is served, and the timer alone can fault. -/
theorem writeHangsWhileInterruptsAreMasked : Obligations.WriteHangsWhileInterruptsAreMasked := by
  intro s hw hb hgie ho
  have hisr : s.isrEnabled = false := by simp [State.isrEnabled, hgie]
  refine ⟨fun t h => ?_, fun h => ?_⟩
  · obtain ⟨u, hr, hmove⟩ | hout := step_cases ho h
    · obtain ⟨hF, hC, -, hPIN, hmc, hSYM, hW, -⟩ := hr.keeps
      rw [← hF, ← hPIN, ← hSYM, ← hW]
      exact hmove.of_masked (hmc.trans hw) (hC ▸ hb) (hr.isrEnabled.trans hisr)
    · obtain ⟨⟨hF, hC, -, hPIN, hmc, hSYM, hW⟩, -⟩ := hout.sameBlock
      exact ⟨hC ▸ hb, hmc.trans hw, hF, hPIN, hW, hSYM⟩
  · obtain ⟨i, u, hf, he⟩ := step_fault h
    obtain ⟨-, hrun, hcnt, hpend⟩ := exec_overrun he
    obtain ⟨hr, -⟩ := fetch_run hf
    obtain ⟨-, -, hT, -⟩ := hr.keeps
    rw [hT] at hrun hcnt hpend
    exact ⟨hpend, hrun, hcnt⟩

/-! ### Between two calls -/

/-- In Ready the timer's registers are known: stopped, with no request, and configured (10_state R30). -/
theorem ready_timer {s : State} (hinv : s.BlockInv) (hm : s.mc = .ready) :
    s.T = { run := false, cnt := 0, period := s.params.period, irqEn := true, irqPend := false } := by
  obtain ⟨c, hs⟩ := hinv.stopped_of_ready hm
  exact Timer.mk.injEq .. ▸ ⟨hs.notRunning, hs.cntZero, c.periodIsP, c.irqEnabled, hs.noRequest⟩

theorem ready_pin {s : State} (hinv : s.BlockInv) (hm : s.mc = .ready) :
    s.PIN = { dir := .output, level := .high } := by
  obtain ⟨c, hs⟩ := hinv.stopped_of_ready hm
  exact Pin.mk.injEq .. ▸ ⟨c.pinDriven, hs.lineHigh⟩

/-- Settles O29: the length resolves alike, and in Ready the timer and the pin are known. -/
theorem nothingLeaksIntoTheNextWrite : Obligations.NothingLeaksIntoTheNextWrite := by
  intro s s' t buffer i hinv hinv' hm hm' hmem hparams hi h
  have write {len : Option Nat} {n : Nat} (hn : 1 ≤ n) (hlen : resolveLength s.params s.mem buffer len = .ok n)
      (ht : s.enterWrite buffer len = .next t) :
      ∃ t', s'.enterWrite buffer len = .next t' ∧ t'.F = t.F ∧ t'.C = t.C ∧ t'.T = t.T ∧ t'.PIN = t.PIN ∧ t'.mc = t.mc ∧
        t.PIN.level = .high ∧ t.T.irqPend = false := by
    rw [enterWrite_of_pos hm hn hlen] at ht
    obtain rfl := Host.Outcome.next.inj ht
    refine ⟨_, enterWrite_of_pos hm' hn (by rw [← hmem, ← hparams]; exact hlen), rfl, rfl, ?_, ?_, rfl, ?_, ?_⟩
    · simp [State.startTimer, State.raiseBusy, ready_timer hinv hm, ready_timer hinv' hm', hparams]
    · simp [State.startTimer, State.raiseBusy, ready_pin hinv hm, ready_pin hinv' hm']
    · simp [State.startTimer, State.raiseBusy, ready_pin hinv hm]
    · simp [State.startTimer, State.raiseBusy, ready_timer hinv hm]
  obtain ⟨n, hn, rfl⟩ | ⟨rfl, hbyte⟩ := hi
  · exact write (len := some n) hn rfl h
  · obtain ⟨-, n, hlen, -⟩ := enterWrite_next (len := none) h
    refine write (len := none) ?_ hlen h
    rcases Nat.eq_zero_or_pos n with rfl | hn
    · obtain ⟨k, hk, hfrom⟩ | ⟨hnone, -⟩ := measureBuffer_cases s.params s.mem buffer
      · cases hk.symm.trans hlen
        obtain ⟨-, -, hmark, -⟩ := measureFrom_some.mp hfrom
        exact absurd hmark hbyte
      · cases hnone.symm.trans hlen
    · exact hn

/-- Settles O38: a stopped timer has no request, so the handler is not enabled and a cycle changes nothing; END stops
it. -/
theorem noTickWhileStopped : Obligations.NoTickWhileStopped := by
  refine ⟨fun s hinv hm hrun => ?_, fun s t h hsym => ?_⟩
  · obtain ⟨-, hs | hs⟩ := hinv.modes hm
    · have hisr : s.isrEnabled = false := by simp [State.isrEnabled, State.irq, hs.noRequest]
      exact ⟨hs.noRequest, execIsr_refused.mpr ⟨rfl, hisr⟩,
        (State.Completes.tcycle _ hm hisr (cycle_of_stopped hrun)).exec⟩
    · cases hrun.symm.trans hs.running
  · obtain ⟨-, a, -, rfl⟩ := execIsr_next h
    have hend : a.1 = .endOfStream := by simpa [handle_SYM] using hsym
    rw [handle_of_end _ hend]
    exact ⟨rfl, rfl, by simp [State.isrEnabled, State.irq, State.stopTransmission, State.clearBusy, State.clearPending]⟩

end Sys2Proof.Machine
end

section
/-! PROOFS of 41_controller R105, R110 and 70_reset R188, R189: a `write` returns only after its whole stream, and
with the request served it gets there in `11n` periods whatever the order of the agents. -/

namespace Sys2Proof.Machine

/-! ### The end of a `write` -/

theorem payload_length (s : State) : s.payload.length = s.F.length := bufferBytes_length _ _ _

/-- A `write` whose timer has stopped has sent its whole stream. -/
theorem State.Stopped.sent_all {s : State} {w : List Level} {y : List Symbol} (hs : s.Stopped) (hm : s.mc = .waiting)
    (h : s.Sent w y) : s.W = w ++ wireLevels s.payload ∧ s.SYM = y ++ wireSymbols s.payload := by
  obtain ⟨hdone, hlen⟩ := hs.finished hm
  obtain ⟨hlevels, hsymbols⟩ := h
  have hpos : s.F.pos = 11 * s.payload.length := by rw [pos_of_done hdone, payload_length]
  have hne : s.payload ≠ [] := by
    intro hempty
    have hzero := payload_length s
    rw [hempty, List.length_nil] at hzero
    omega
  rw [List.take_of_length_le (by rw [hpos, wireLevels_length _ hne]; exact Nat.sub_le _ _)] at hlevels
  rw [List.take_of_length_le (by rw [hpos, wireSymbols_length])] at hsymbols
  exact ⟨hlevels, hsymbols⟩

theorem State.Stopped.pin {s : State} (hs : s.Stopped) (c : s.Configured) :
    s.PIN = { dir := .output, level := .high } :=
  Pin.mk.injEq .. ▸ ⟨c.pinDriven, hs.lineHigh⟩

/-- Settles O57: the step that returns is the POLL of a stopped block, and in a stopped `write` the framer is DONE. -/
theorem writeReturnsOnlyAfterTheWholeStream : Obligations.WriteReturnsOnlyAfterTheWholeStream := by
  intro s t hinv hstream ho hw h hready
  obtain ⟨u, hr, hmove⟩ | hout := step_cases ho h
  · obtain ⟨-, -, -, -, hmc, -, -, hmem, -, hparams, -⟩ := hr.keeps
    have hwait : u.mc = .waiting := hmc.trans hw
    obtain ⟨-, -, -, hstay | ⟨-, hb, rfl⟩⟩ := hmove.of_waiting hwait
    · cases hready.symm.trans hstay
    · have hinv' : u.BlockInv := hinv.of_sameBlock hr.sameBlock hparams
      obtain ⟨c, hs⟩ := hinv'.stopped_of_not_busy (by simp [hwait]) hb
      obtain ⟨w, y, hsent⟩ := hstream.of_sameBlock hr.sameBlock hmem hwait
      obtain ⟨hdone, hlen⟩ := hs.finished hwait
      exact ⟨⟨w, y, hs.sent_all hwait hsent⟩, hlen, hdone, hs.notRunning, hb, hs.pin c⟩
  · obtain ⟨⟨-, -, -, -, hmc, -, -⟩, -⟩ := hout.sameBlock
    cases hready.symm.trans (hmc.trans hw)

/-! ### One move of the schedule inside a `write` -/

/-- A `write` is sending with interrupts enabled, its buffer lies in the address space, no request is open, and only the
agents are scheduled. -/
structure State.OnAir (s : State) : Prop where
  inv : s.BlockInv
  running : s.T.run = true
  waiting : s.mc = .waiting
  gie : s.gie = true
  offered : s.offered = none
  noRequest : s.T.irqPend = false
  space : s.F.buf + s.F.length ≤ 2 ^ s.params.addrW
  agents : s.schedule.all Move.isAgent = true

section
variable {s : State}

theorem State.OnAir.sending (h : s.OnAir) : s.Configured ∧ s.Sending :=
  h.inv.sending_of_running (by simp [h.waiting]) h.running

theorem State.OnAir.isrEnabled (h : s.OnAir) : s.isrEnabled = false := by
  simp [State.isrEnabled, State.irq, h.noRequest]

theorem State.OnAir.agents_tail {m : Move} {rest : List Move} (h : s.OnAir) (hs : s.schedule = m :: rest) :
    m.isAgent = true ∧ rest.all Move.isAgent = true := by
  have hall := h.agents
  rw [hs, List.all_cons, Bool.and_eq_true] at hall
  exact hall

/-- The main context polls and finds `busy` true. -/
theorem State.OnAir.step_main {rest : List Move} (h : s.OnAir) (hs : s.schedule = .main :: rest) :
    step s = .next (s.setSchedule rest) := by
  obtain ⟨-, hsend⟩ := h.sending
  refine (step_of_run ((fetch_scheduled h.isrEnabled h.offered hs).trans ?_)).trans
    (State.Completes.pollBusy (s := s.setSchedule rest) h.waiting hsend.busy).exec
  exact mainMove_of_waiting (s := s.setSchedule rest) h.waiting

theorem State.OnAir.step_timer {rest : List Move} {u : Timer} (h : s.OnAir) (hs : s.schedule = .timer :: rest)
    (hu : s.T.cycle = .ok u) : step s = .next ((s.setSchedule rest).setTimer u) :=
  (step_of_run (fetch_scheduled h.isrEnabled h.offered hs)).trans
    (State.Completes.tcycle (s := s.setSchedule rest) u (by simp [h.waiting]) h.isrEnabled hu).exec

theorem State.OnAir.main {rest : List Move} (h : s.OnAir) (hs : s.schedule = .main :: rest) :
    (s.setSchedule rest).OnAir :=
  { h with
    inv := everyStepKeepsTheBlockInvariant s _ h.inv h.offered (h.step_main hs)
    agents := (h.agents_tail hs).2 }

/-- After a cycle before the end of the period: the counter is one higher. -/
def State.counted (s : State) (rest : List Move) : State :=
  (s.setSchedule rest).setTimer { s.T with cnt := s.T.cnt + 1 }

/-- A cycle before the end of the period counts. -/
theorem State.OnAir.counts {rest : List Move} (h : s.OnAir) (hs : s.schedule = .timer :: rest)
    (hcnt : s.T.cnt + 1 ≠ s.T.period) : step s = .next (s.counted rest) ∧ (s.counted rest).OnAir := by
  have hstep : step s = .next (s.counted rest) := h.step_timer hs (cycle_of_counting h.running hcnt)
  exact ⟨hstep, { h with
    inv := everyStepKeepsTheBlockInvariant s _ h.inv h.offered hstep
    agents := (h.agents_tail hs).2 }⟩

/-- After the cycle that ends the period: the counter is back at 0 and the request is raised. -/
def State.requested (s : State) (rest : List Move) : State := (s.setSchedule rest).setTimer s.T.endPeriod

/-- After the tick that follows it: the handler has acted on what ADVANCE answered. -/
def State.ticked (s : State) (rest : List Move) (a : Symbol × Framer) : State :=
  (s.requested rest).clearPending.handle a

@[simp] theorem ticked_F (s : State) (rest : List Move) (a : Symbol × Framer) : (s.ticked rest a).F = a.2 :=
  handle_F _ a

@[simp] theorem ticked_mc (s : State) (rest : List Move) (a : Symbol × Framer) : (s.ticked rest a).mc = s.mc :=
  handle_mc _ a

@[simp] theorem ticked_schedule (s : State) (rest : List Move) (a : Symbol × Framer) :
    (s.ticked rest a).schedule = rest := by
  rw [State.ticked, handle_writes]
  rfl

/-- The counter stands at 0 after a tick, END or not. -/
theorem ticked_timer (s : State) (rest : List Move) (a : Symbol × Framer) :
    (s.ticked rest a).T.cnt = 0 ∧ (s.ticked rest a).T.period = s.T.period := by
  rcases handle_cases (s.requested rest).clearPending a with ⟨-, h⟩ | ⟨-, h⟩ | ⟨-, h⟩
  · rw [State.ticked, h]
    exact ⟨rfl, rfl⟩
  · rw [State.ticked, h]
    exact ⟨rfl, rfl⟩
  · rw [State.ticked, h]
    exact ⟨rfl, rfl⟩

theorem ticked_payload {rest : List Move} {a : Symbol × Framer} (ha : s.F.advance s.params s.mem = .ok a) :
    (s.ticked rest a).payload = s.payload := by
  obtain ⟨hbuf, hlen⟩ := advance_keeps_buffer ha
  rw [State.payload, State.ticked, handle_mem, handle_F, hbuf, hlen]
  rfl

/-- The cycle at the end of the period requests, and the handler's tick follows at once. -/
theorem State.OnAir.ticks {rest : List Move} (h : s.OnAir) (hs : s.schedule = .timer :: rest)
    (hcnt : s.T.cnt + 1 = s.T.period) :
    ∃ a, s.F.advance s.params s.mem = .ok a ∧ (s.requested rest).Sending ∧ (s.ticked rest a).BlockInv ∧
      ∀ k, Sys2Proof.core.run (k + 2) s = Sys2Proof.core.run k (s.ticked rest a) := by
  obtain ⟨c, hsend⟩ := h.sending
  obtain ⟨a, ha⟩ := advance_completes (m := s.mem) hsend.engaged h.space
  have hfirst : step s = .next (s.requested rest) := h.step_timer hs (cycle_of_period_end h.running hcnt h.noRequest)
  have hinv := everyStepKeepsTheBlockInvariant s _ h.inv h.offered hfirst
  have hisr : (s.requested rest).isrEnabled = true :=
    isrEnabled_iff.mpr ⟨by simp [State.requested, h.waiting], rfl, c.irqEnabled, h.gie⟩
  obtain ⟨-, hreq⟩ := hinv.sending_of_isrEnabled hisr
  have hsecond : step (s.requested rest) = .next (s.ticked rest a) :=
    (step_of_run (fetch_isr hisr)).trans (State.Completes.isr a hisr ha).exec
  exact ⟨a, ha, hreq, everyStepKeepsTheBlockInvariant _ _ hinv h.offered hsecond,
    fun k => (run_succ (k + 1) hfirst).trans (run_succ k hsecond)⟩

/-- After a tick that obtained another symbol than END the `write` is on the air again. -/
theorem State.OnAir.ticked {rest : List Move} {a : Symbol × Framer} (h : s.OnAir) (hs : s.schedule = .timer :: rest)
    (ha : s.F.advance s.params s.mem = .ok a) (hreq : (s.requested rest).Sending) (hinv : (s.ticked rest a).BlockInv)
    (hne : a.1 ≠ .endOfStream) : (s.ticked rest a).OnAir where
  inv := hinv
  running := (isr_level_sending hreq ha hne).running
  waiting := (ticked_mc s rest a).trans h.waiting
  gie := by
    rw [State.ticked, handle_writes]
    exact h.gie
  offered := by
    rw [State.ticked, handle_writes]
    exact h.offered
  noRequest := handle_irqPend _ a
  space := by
    obtain ⟨hbuf, hlen⟩ := advance_keeps_buffer ha
    have hparams : (s.ticked rest a).params = s.params := by
      rw [State.ticked, handle_writes]
      rfl
    rw [ticked_F, hbuf, hlen, hparams]
    exact h.space
  agents := by
    rw [ticked_schedule]
    exact (h.agents_tail hs).2

/-! ### The whole way to the end -/

/-- How many cycles of the timer are left until the tick that obtains END. -/
def State.cyclesLeft (s : State) : Nat := (11 * s.F.length - s.F.pos) * s.T.period - s.T.cnt

theorem State.OnAir.cyclesLeft_pos (h : s.OnAir) : 0 < s.cyclesLeft := by
  obtain ⟨c, hsend⟩ := h.sending
  have hpos := hsend.engaged.pos_lt hsend.notDone
  have hcnt := c.cntBound
  have hone : 1 * s.T.period ≤ (11 * s.F.length - s.F.pos) * s.T.period := Nat.mul_le_mul_right _ (by omega)
  unfold State.cyclesLeft
  omega

/-- `k` steps from `s`, and as many cycles as are left, lead to a stopped block that has sent the whole stream. -/
structure State.Finishes (s : State) (w : List Level) (y : List Symbol) (k : Nat) (u : State) : Prop where
  run : Sys2Proof.core.run k s = .next u
  steps : k ≤ s.schedule.length + (11 * s.F.length - s.F.pos)
  cycles : timerMoves u.schedule + s.cyclesLeft = timerMoves s.schedule
  levels : u.W = w ++ wireLevels s.payload
  symbols : u.SYM = y ++ wireSymbols s.payload
  waiting : u.mc = .waiting
  configured : u.Configured
  stopped : u.Stopped

/-- What a later state of the run finishes, an earlier one does. -/
theorem State.Finishes.of_later {t u : State} {w : List Level} {y : List Symbol} {j k : Nat} (hf : t.Finishes w y k u)
    (hrun : ∀ k, Sys2Proof.core.run (k + j) s = Sys2Proof.core.run k t)
    (hsteps : t.schedule.length + (11 * t.F.length - t.F.pos) + j ≤ s.schedule.length + (11 * s.F.length - s.F.pos))
    (hcycles : timerMoves t.schedule + s.cyclesLeft = timerMoves s.schedule + t.cyclesLeft)
    (hpayload : t.payload = s.payload) : s.Finishes w y (k + j) u where
  run := (hrun k).trans hf.run
  steps := by
    have hk := hf.steps
    omega
  cycles := by
    have hc := hf.cycles
    omega
  levels := hpayload ▸ hf.levels
  symbols := hpayload ▸ hf.symbols
  waiting := hf.waiting
  configured := hf.configured
  stopped := hf.stopped

@[simp] theorem timerMoves_main (q : List Move) : timerMoves (.main :: q) = timerMoves q := by simp [timerMoves]

@[simp] theorem timerMoves_timer (q : List Move) : timerMoves (.timer :: q) = timerMoves q + 1 := by simp [timerMoves]

/-- Before the end of the period a cycle takes one off what is left. -/
theorem State.OnAir.cyclesLeft_counts {rest : List Move} (h : s.OnAir) :
    (s.counted rest).cyclesLeft + 1 = s.cyclesLeft := by
  have hpos := h.cyclesLeft_pos
  unfold State.cyclesLeft at *
  simp only [State.counted, State.setTimer_F, State.setTimer_T, State.setSchedule_F]
  omega

/-- At the end of a period a cycle takes one off, too: the tick stands one position further on with the counter at 0. -/
theorem State.OnAir.cyclesLeft_ticks {rest : List Move} {a : Symbol × Framer} (h : s.OnAir)
    (hcnt : s.T.cnt + 1 = s.T.period) (ha : s.F.advance s.params s.mem = .ok a) :
    (s.ticked rest a).cyclesLeft + 1 = s.cyclesLeft := by
  obtain ⟨-, hsend⟩ := h.sending
  obtain ⟨-, hlen⟩ := advance_keeps_buffer ha
  obtain ⟨hzero, hperiod⟩ := ticked_timer s rest a
  have hpos := hsend.engaged.pos_lt hsend.notDone
  have hperiods : (11 * s.F.length - s.F.pos) * s.T.period =
      (11 * s.F.length - (s.F.pos + 1)) * s.T.period + s.T.period := by
    rw [← Nat.succ_mul]
    congr 1
    omega
  unfold State.cyclesLeft
  rw [ticked_F, hzero, hperiod, hlen, advance_pos_succ hsend.engaged hsend.notDone ha, hperiods]
  omega

/-- A stopped `write` that has sent its stream has finished. -/
theorem State.Stopped.finishes {w : List Level} {y : List Symbol} (hs : s.Stopped) (c : s.Configured)
    (hm : s.mc = .waiting) (hsent : s.Sent w y) : s.Finishes w y 0 s := by
  obtain ⟨hdone, -⟩ := hs.finished hm
  obtain ⟨hlevels, hsymbols⟩ := hs.sent_all hm hsent
  have hleft : s.cyclesLeft = 0 := by simp [State.cyclesLeft, pos_of_done hdone]
  exact ⟨rfl, Nat.zero_le _, by rw [hleft, Nat.add_zero], hlevels, hsymbols, hm, c, hs⟩

/-- A `write` on the air finishes under every schedule of the agents with enough cycles, by induction on the schedule:
the main context's moves change nothing, a cycle counts, and at the end of a period the tick sends one symbol and goes
on or, with END, stops. -/
theorem State.OnAir.finishes {q : List Move} {w : List Level} {y : List Symbol} (hq : s.schedule = q) (h : s.OnAir)
    (hcycles : s.cyclesLeft ≤ timerMoves q) (hsent : s.Sent w y) : ∃ k u, s.Finishes w y k u := by
  induction q generalizing s with
  | nil => exact absurd hcycles (Nat.not_le.mpr h.cyclesLeft_pos)
  | cons m rest ih =>
    cases m with
    | secondCaller e => cases (h.agents_tail hq).1
    | hostStore x v => cases (h.agents_tail hq).1
    | setGie on => cases (h.agents_tail hq).1
    | main =>
      rw [timerMoves_main] at hcycles
      obtain ⟨k, u, hf⟩ := ih rfl (h.main hq) hcycles hsent
      refine ⟨k + 1, u, hf.of_later (fun k => run_succ k (h.step_main hq)) ?_ ?_ rfl⟩
      · rw [hq, List.length_cons]
        exact (Nat.add_right_comm _ _ _).le
      · rw [hq, timerMoves_main]
        rfl
    | timer =>
      rw [timerMoves_timer] at hcycles
      by_cases hcnt : s.T.cnt + 1 = s.T.period
      · obtain ⟨a, ha, hreq, hinv, hrun⟩ := h.ticks hq hcnt
        have hleft := h.cyclesLeft_ticks (rest := rest) hcnt ha
        have hsent' : (s.ticked rest a).Sent w y := hreq.sent_isr ha hsent
        have hfinish : ∃ k u, (s.ticked rest a).Finishes w y k u := by
          by_cases hend : a.1 = .endOfStream
          · have hstop : (s.ticked rest a).Stopped := isr_end_stopped hreq ha hend
            have hwait : (s.ticked rest a).mc = .waiting := (ticked_mc s rest a).trans h.waiting
            obtain ⟨c, -⟩ := hinv.modes (by simp [h.waiting])
            exact ⟨0, _, hstop.finishes c hwait hsent'⟩
          · exact ih (ticked_schedule s rest a) (h.ticked hq ha hreq hinv hend) (by omega) hsent'
        obtain ⟨k, u, hf⟩ := hfinish
        refine ⟨k + 2, u, hf.of_later hrun ?_ ?_ (ticked_payload ha)⟩
        · obtain ⟨-, hsend⟩ := h.sending
          obtain ⟨-, hlen⟩ := advance_keeps_buffer ha
          have hpos := hsend.engaged.pos_lt hsend.notDone
          rw [hq, ticked_schedule, ticked_F, hlen, advance_pos_succ hsend.engaged hsend.notDone ha, List.length_cons]
          omega
        · rw [hq, ticked_schedule, timerMoves_timer]
          omega
      · obtain ⟨hstep, hnext⟩ := h.counts hq hcnt
        have hleft := h.cyclesLeft_counts (rest := rest)
        obtain ⟨k, u, hf⟩ := ih rfl hnext (by omega) hsent
        refine ⟨k + 1, u, hf.of_later (fun k => run_succ k hstep) ?_ ?_ rfl⟩
        · rw [hq, List.length_cons]
          exact (Nat.add_right_comm _ _ _).le
        · have hrest : (s.counted rest).schedule = rest := rfl
          rw [hq, timerMoves_timer, hrest]
          omega

end

/-- Settles O58: WRITE puts the `write` on the air at position 0 with `11n` periods left, and the block that finishes is
stopped, where the POLL returns. -/
theorem writeSendsItsBufferAndReturns : Obligations.WriteSendsItsBufferAndReturns := by
  intro s t buffer n hinv hm hgie ho hn hlen hspace hagents hcycles h
  obtain ⟨c, hs⟩ := hinv.stopped_of_ready hm
  obtain rfl : ((s.setFramer (Framer.over buffer n)).raiseBusy.startTimer).setMc .waiting = t :=
    Host.Outcome.next.inj ((enterWrite_of_pos (len := some n) hm hn rfl).symm.trans h)
  have hengage := engage_sending hinv.legal c hn (buffer := buffer) (by omega) hlen
  rw [engage_pos s (f := Framer.over buffer n) (Nat.ne_of_gt hn)] at hengage
  obtain ⟨c', hsend⟩ := hengage
  have hair : (((s.setFramer (Framer.over buffer n)).raiseBusy.startTimer).setMc .waiting).OnAir :=
    { inv := blockInv_of_modes hinv.legal fun _ => ⟨c', .inr hsend⟩
      running := rfl
      waiting := rfl
      gie := hgie
      offered := ho
      noRequest := hs.noRequest
      space := hspace
      agents := hagents }
  have hleft : (((s.setFramer (Framer.over buffer n)).raiseBusy.startTimer).setMc .waiting).cyclesLeft =
      11 * n * s.params.period := by
    rw [← c.periodIsP]
    rfl
  obtain ⟨k, u, hf⟩ := hair.finishes rfl (hleft.trans_le hcycles) (sent_of_pos_zero rfl)
  refine ⟨k, u, hf.run, hf.steps, ?_, hf.levels, hf.symbols, hf.waiting, hf.stopped.notBusy, hf.stopped.notRunning,
    hf.stopped.pin hf.configured, (State.Completes.pollDone hf.waiting hf.stopped.notBusy).exec⟩
  rw [← hleft]
  exact hf.cycles

end Sys2Proof.Machine
end
